-- ==== Sys2Proof/Word.lean ====
section
/-! DEFINITION. The word types: a register, a command word and a sample are 32 bits wide (R8, R9). -/

namespace Sys2Proof

/-- A 32-bit word (R8): a register, a command word, or the binary32 pattern of a sample (R9). -/
abbrev Word := BitVec 32

/-- One byte of a word as the byte-addressed host window shows it (R68). -/
abbrev Byte := BitVec 8

/-- A sample word, or `none` where the spec leaves the word *unspecified* (R44). -/
abbrev Sample := Option Word

end Sys2Proof
end

