-- ==== Sys2Proof/Syntax.lean ====
section
/-! DEFINITION. The command set SCFFT-1.0 as syntax: one constructor per row of the opcode table (R94, R95). -/

namespace Sys2Proof

/-- A complex sample buffer: the operand fields D, S1 and S2 name one each (R21, R22). -/
inductive Buf where
  | A
  | B
deriving DecidableEq, Repr

/-- The field INV of BFSTG (R92): forward twiddles or inverse twiddles. -/
inductive Dir where
  | forward
  | inverse
deriving DecidableEq, Repr

/-- The seven commands (R94), operands in the assembler's order (R100). -/
inductive Instr where
  /-- `FFT d` (R160). -/
  | fft (d : Buf)
  /-- `IFFT d` (R161). -/
  | ifft (d : Buf)
  /-- `CMUL d, s1, s2` (R190). -/
  | cmul (d s1 s2 : Buf)
  /-- `BITREV d` (R163). -/
  | bitrev (d : Buf)
  /-- `BFSTG d, stg, F|I` (R165); the field STG holds 0 to 31 (R92). -/
  | bfstg (d : Buf) (stg : Nat) (inv : Dir)
  /-- `SCALE d` (R167). -/
  | scale (d : Buf)
  /-- `MAGPH d, s1` (R200). -/
  | magph (d s1 : Buf)
deriving DecidableEq, Repr

end Sys2Proof
end

