-- ==== Sys2Proof/WellFormed.lean ====
section
/-! DEFINITION. Which syntax has a command word: the stage number must fit the five bits of STG (R91, R92). -/

namespace Sys2Proof

/-- An instruction has an encoding (R92): the one bound the types do not state is that of STG, 0 to 31. -/
def WellFormed : Instr → Bool
  | .fft _ => true
  | .ifft _ => true
  | .cmul _ _ _ => true
  | .bitrev _ => true
  | .bfstg _ stg _ => decide (stg < 32)
  | .scale _ => true
  | .magph _ _ => true

end Sys2Proof
end

