-- ==== Sys2Proof/Decode.lean ====
section
/-! DEFINITION. Decoding a command word, total on any word and on any bytes (R90 to R98), and the encoder (R100). Whether a
unit has MAGPH (`HAS_MAGPH`) is no matter of the word: the check stands in the command's validation (R201, R266). -/

namespace Sys2Proof

/-- Why a word, or a list of bytes, is no command (R97). -/
inductive Reject where
  /-- Fewer than the four bytes of a command word (R90). -/
  | tooShort
  /-- OPC is 0 or 8 to 15 (R94). -/
  | reservedOpcode
  /-- A field the command does not use, or RSV, is not zero (R95). -/
  | reservedField
deriving DecidableEq, Repr

/-- The buffer a one-bit operand field at bit `i` names (R92, R93). -/
def bufAt (w : Word) (i : Nat) : Buf := if w.getLsbD i then .B else .A

/-- The field INV, bit 7 (R91). -/
def invAt (w : Word) : Dir := if w.getLsbD 7 then .inverse else .forward

/-- The field STG, bits 12:8, unsigned (R91, R93). -/
def stgAt (w : Word) : Nat := (w >>> 8).toNat % 32

/-- The field OPC, bits 3:0 (R91). -/
def opcAt (w : Word) : Nat := w.toNat % 16

/-- The (mask, match) pairs of R95, in the table's order. -/
def rowFft : Word × Word := (0xFFFFFFEF#32, 0x00000001#32)
@[inherit_doc rowFft] def rowIfft : Word × Word := (0xFFFFFFEF#32, 0x00000002#32)
@[inherit_doc rowFft] def rowCmul : Word × Word := (0xFFFFFF8F#32, 0x00000003#32)
@[inherit_doc rowFft] def rowBitrev : Word × Word := (0xFFFFFFEF#32, 0x00000004#32)
@[inherit_doc rowFft] def rowBfstg : Word × Word := (0xFFFFE06F#32, 0x00000005#32)
@[inherit_doc rowFft] def rowScale : Word × Word := (0xFFFFFFEF#32, 0x00000006#32)
@[inherit_doc rowFft] def rowMagph : Word × Word := (0xFFFFFFCF#32, 0x00000007#32)

/-- The seven rows of R95. -/
def opcodeRows : List (Word × Word) :=
  [rowFft, rowIfft, rowCmul, rowBitrev, rowBfstg, rowScale, rowMagph]

/-- `w & mask = match` (R95). -/
def rowHit (row : Word × Word) (w : Word) : Bool := w &&& row.1 == row.2

/-- `Decode` of R96, but for the configuration's `HAS_MAGPH`, which validation checks. DESIGN CHOICE (log 9). -/
def decodeWord (w : Word) : Except Reject Instr :=
  if rowHit rowFft w then .ok (.fft (bufAt w 4))
  else if rowHit rowIfft w then .ok (.ifft (bufAt w 4))
  else if rowHit rowCmul w then .ok (.cmul (bufAt w 4) (bufAt w 5) (bufAt w 6))
  else if rowHit rowBitrev w then .ok (.bitrev (bufAt w 4))
  else if rowHit rowBfstg w then .ok (.bfstg (bufAt w 4) (stgAt w) (invAt w))
  else if rowHit rowScale w then .ok (.scale (bufAt w 4))
  else if rowHit rowMagph w then .ok (.magph (bufAt w 4) (bufAt w 5))
  else if 1 ≤ opcAt w ∧ opcAt w ≤ 7 then .error .reservedField
  else .error .reservedOpcode

/-- A word from its bytes, the byte at the lowest address first: little-endian (R68). -/
def wordOfBytes (b0 b1 b2 b3 : Byte) : Word := b3 ++ b2 ++ b1 ++ b0

/-- The byte `k` of a word: bits `8k+7 : 8k` (R68). -/
def byteOfWord (w : Word) (k : Nat) : Byte := w.extractLsb' (8 * k) 8

/-- The bytes of a word in address order (R68). -/
def bytesOfWord (w : Word) : List Byte :=
  [byteOfWord w 0, byteOfWord w 1, byteOfWord w 2, byteOfWord w 3]

/-- A command read from bytes, with the bytes after it: every command is one word (R90). -/
def decodeBytes : List Byte → Except Reject (Instr × List Byte)
  | b0 :: b1 :: b2 :: b3 :: rest =>
    match decodeWord (wordOfBytes b0 b1 b2 b3) with
    | .ok i => .ok (i, rest)
    | .error e => .error e
  | _ => .error .tooShort

/-- The bit that names a buffer (R22): A is 0, B is 1. -/
def bufBit : Buf → Word
  | .A => 0#32
  | .B => 1#32

/-- The bit INV (R92): forward is 0, inverse is 1. -/
def invBit : Dir → Word
  | .forward => 0#32
  | .inverse => 1#32

/-- The command word of a well-formed instruction, from the encoding column of R100. -/
def encode : Instr → Word
  | .fft d => 0x1#32 ||| bufBit d <<< 4
  | .ifft d => 0x2#32 ||| bufBit d <<< 4
  | .cmul d s1 s2 => 0x3#32 ||| bufBit d <<< 4 ||| bufBit s1 <<< 5 ||| bufBit s2 <<< 6
  | .bitrev d => 0x4#32 ||| bufBit d <<< 4
  | .bfstg d stg inv => 0x5#32 ||| bufBit d <<< 4 ||| invBit inv <<< 7 ||| BitVec.ofNat 32 stg <<< 8
  | .scale d => 0x6#32 ||| bufBit d <<< 4
  | .magph d s1 => 0x7#32 ||| bufBit d <<< 4 ||| bufBit s1 <<< 5

/-- The instruction the decoder reads from a word given in the opcode table's bit numbering, its bytes laid out as the host
window stores them (R68); the bits from `nbits` up are zero. -/
def decodeTableWord (nbits w : Nat) : Option Instr :=
  match decodeBytes (bytesOfWord (BitVec.ofNat 32 (w % 2 ^ nbits))) with
  | .ok (i, _) => some i
  | .error _ => none

end Sys2Proof
end

