-- ==== Sys2Proof/Config.lean ====
section
/-! DEFINITION. What an implementation fixes (R5) and the free values of the model (R44, R72, R203). -/

namespace Sys2Proof

/-- The open parameters of the unit (R5). They are plain data and stand in the state, so that every statement over all
states holds for every configuration; no step changes them. -/
structure Params where
  /-- `LOGNMAX - 3`; R5 allows 3 to 24. -/
  capacity     : Fin 22
  /-- `HAS_MAGPH` (R5, R205). -/
  hasMagph     : Bool
  /-- Whether `ATAN2_32` is the spec's default, the correctly rounded function (R203, R204). -/
  atan2Default : Bool
  /-- `SCFFT_BASE` (R64) in units of the window's size, since the base is a multiple of `8·PB`. -/
  windowIndex  : Nat
deriving DecidableEq, Repr

/-- The value of the `n`-th read the spec answers with `any` (R10, R44, R72): no body, so nothing can be proved of it. -/
opaque Config.freeWord : Nat → BitVec 32

/-- `ATAN2_32 y x` of a unit configured with another function than the default: R203 assumes only that the result depends
on the two operand patterns. -/
opaque Config.atan2 : BitVec 32 → BitVec 32 → BitVec 32

/-- The low 31 bits of the binary32 nearest to a twiddle component that the model's own evaluation of R134 puts within its error
of `v · 2^-128`, should that evaluation ever leave two neighbouring patterns possible. -/
opaque Config.romBody : Nat → BitVec 31

end Sys2Proof
end

