-- ==== Sys2Proof/Machine/State.lean ====
section
/-! DEFINITION. The state of the unit and of its host, as plain data, the reasons a step can stop, and the state after reset
(R20 to R44). -/

namespace Sys2Proof.Machine

/-- The eight registers, in the order of their numbers (R28). -/
inductive Reg where
  | id | cap | ctrl | status | cmd | errinfo | lena | lenb
deriving DecidableEq, Repr

/-- The four sample planes, numbered 0 to 3 (R60). -/
inductive Plane where
  | aRe | aIm | bRe | bIm
deriving DecidableEq, Repr

/-- The error names of R260; code 3 is the driver's alone. -/
inductive ErrCode where
  | nonPowerOfTwoLength
  | lengthMismatch
  | emptyInput
  | illegalCommand
  | lengthTooLarge
  | stageOutOfRange
deriving DecidableEq, Repr

/-- The writable bits of CTRL (R33): SRST always reads 0 and the reserved bits ignore writes, so only the enables are state. -/
structure Ctrl where
  /-- IE_DONE, bit 1. -/
  ieDone : Bool
  /-- IE_ERR, bit 2. -/
  ieErr  : Bool
deriving DecidableEq, Repr

/-- The fields of STATUS (R34); the reserved bits read 0 and hold nothing. -/
structure Status where
  /-- BUSY, bit 0. -/
  busy    : Bool
  /-- DONE, bit 1. -/
  done    : Bool
  /-- ERR, bit 2. -/
  err     : Bool
  /-- OVR, bit 3. -/
  ovr     : Bool
  /-- ERRCODE, bits 11:8. -/
  errcode : BitVec 4
deriving DecidableEq, Repr

/-- The sample memory as the bytes of the host window's planes (R64, R68): addresses are byte offsets from the window's base,
strictly rising; a byte that is not listed is *unspecified* (R44). DESIGN CHOICE (logs 2 and 11). -/
abbrev Memory := List Host.Cell

/-- What the host does next: a transaction (R66), or a step of the driver programs of R106 and R240. -/
inductive HostOp where
  /-- `rd REG` (R69). -/
  | rd (r : Reg)
  /-- `wr REG, v` (R70). -/
  | wr (r : Reg) (v : Word)
  /-- `rs b.plane[i]` (R72, R74). -/
  | rs (p : Plane) (i : Nat)
  /-- `ws b.plane[i], v` (R71, R73). -/
  | ws (p : Plane) (i : Nat) (v : Word)
  /-- `MemRead(addr, size)` on the byte-addressed bus (R66, R67). -/
  | memRead (addr size : Nat)
  /-- `MemWrite(addr, size, v)` on the byte-addressed bus (R66, R67). -/
  | memWrite (addr size : Nat) (v : Word)
  /-- `reset`, the hard reset (R300). -/
  | reset
  /-- `wait`: read STATUS until BUSY is 0 (R222). -/
  | wait
  /-- The driver's `if v.ERR then abort(v.ERRCODE)`, `v` the value of the last read (R240, R244). -/
  | abortIfErr
  /-- The driver's step 9: abort unless the last two reads returned equal lengths (R241). -/
  | abortIfLensDiffer
  /-- The driver's step 13: the last `n` values read, in order, are its output (R240, R242). -/
  | returnOutput (n : Nat)
  /-- `CONVOLVE out, a, b` (R235, R240). -/
  | convolve (a b : List Word)
deriving DecidableEq, Repr

/-- The two agents (R6). -/
inductive Agent where
  | host
  | engine
deriving DecidableEq, Repr

/-- What a driver call gave its caller (R235, R260). -/
inductive DriverResult where
  /-- The output sequence. -/
  | output (xs : List Word)
  /-- An error, by its code. -/
  | error (code : BitVec 4)
deriving DecidableEq, Repr

/-- The unit (R20), its host (R6), and the model's counter of free values.

ID, CAP and the twiddle ROM are constants (R31, R32, R39): they are computed from `params` where they are read. There is no
program counter (R24), no general register file (R22), no floating-point status (R128) and no hidden state (R40). -/
structure State where
  /-- The configuration (R5); no step changes it. DESIGN CHOICE (log 15). -/
  params  : Params
  /-- CTRL (R33). -/
  ctrl    : Ctrl
  /-- STATUS (R34). -/
  status  : Status
  /-- CMD (R35): the command being executed while BUSY is 1, else the last one completed, else 0. -/
  cmd     : Word
  /-- ERRINFO (R36). -/
  errinfo : Word
  /-- LENA (R37). -/
  lena    : Word
  /-- LENB (R38). -/
  lenb    : Word
  /-- The four sample planes (R21, R60, R64). -/
  mem     : Memory
  /-- Which agent takes each of the next steps (R220); when it is empty the engine moves whenever it can. -/
  sched   : List Agent
  /-- What the host will do, in its program order (R76). DESIGN CHOICE (log 6). -/
  script  : List HostOp
  /-- The values the host's reads returned, the latest first (R69, R74). -/
  reads   : List Word
  /-- What the host's last driver call returned (R235, R244). -/
  result  : Option DriverResult
  /-- The model's own: how many free values the machine has drawn. DESIGN CHOICE (log 2). -/
  draws   : Nat
deriving DecidableEq, Repr

/-- The machine stops. Both reasons are about states no run reaches: acceptance rules them out (R218, R219). -/
inductive Fault where
  /-- Raised by the engine's turn when BUSY is 1 and CMD holds no command word. Safe: the model stops. -/
  | busyWithoutCommand
  /-- Raised by a command's meaning when BUSY is 1 and the command does not pass its validation. Safe: the model stops. -/
  | unvalidatedCommand
deriving DecidableEq, Repr

/-- The model gives the step no meaning. -/
inductive Refusal where
  /-- Raised by an arm of `exec` that has no meaning yet; no arm of this model raises it. Safe. -/
  | notModelled (mnemonic : String)
  /-- Raised by a bus access that is not one aligned 32-bit word (R67: a model refuses it). Safe. -/
  | notAnAlignedWord
  /-- Raised by a bus access outside the unit's window (U23). Safe. -/
  | outsideWindow
  /-- Raised by a sample access at an index not below `NMAX`, which is no sample word (R73, R74). Safe. -/
  | noSuchSample
deriving DecidableEq, Repr

/-- STATUS after reset (R43). -/
def statusReset : Status := { busy := false, done := false, err := false, ovr := false, errcode := 0#4 }

/-- CTRL after reset (R43). -/
def ctrlReset : Ctrl := { ieDone := false, ieErr := false }

/-- A unit of the configuration `p` right after a hard reset, its host with nothing to do (R43, R300). -/
def resetOf (p : Params) : State :=
  { params := p, ctrl := ctrlReset, status := statusReset, cmd := 0#32, errinfo := 0#32, lena := 0#32, lenb := 0#32,
    mem := [], sched := [], script := [], reads := [], result := none, draws := 0 }

/-- The configuration of `State.reset`: the capacity and the arctangent of the spec's own vectors, with MAGPH present so that
every command of the opcode table can run, and the window at address 0. DESIGN CHOICE (log 1): R5 leaves all four open. -/
def paramsDefault : Params := { capacity := 0, hasMagph := true, atan2Default := true, windowIndex := 0 }

/-- The machine right after reset (R43, R300). -/
def State.reset : State := resetOf paramsDefault

end Sys2Proof.Machine
end

