-- ==== Sys2Proof/Machine/Flags.lean ====
section
/-! DEFINITION. The status flags, the register words built from them, and the interrupt output (R25, R33, R34, R275).
There are no arithmetic condition codes (R25) and no floating-point flags (R128). -/

namespace Sys2Proof.Machine

/-- The bit `i` of a word holding the flag `b`. -/
def flagAt (b : Bool) (i : Nat) : Word := (BitVec.ofBool b).setWidth 32 <<< i

/-- STATUS as the host reads it (R34). -/
def statusWord (f : Status) : Word :=
  flagAt f.busy 0 ||| flagAt f.done 1 ||| flagAt f.err 2 ||| flagAt f.ovr 3 ||| f.errcode.setWidth 32 <<< 8

/-- CTRL as the host reads it (R33): SRST reads 0. -/
def ctrlWord (c : Ctrl) : Word := flagAt c.ieDone 1 ||| flagAt c.ieErr 2

/-- The code of an error (R260). -/
def errorCode : ErrCode → BitVec 4
  | .nonPowerOfTwoLength => 1#4
  | .lengthMismatch => 2#4
  | .emptyInput => 3#4
  | .illegalCommand => 4#4
  | .lengthTooLarge => 5#4
  | .stageOutOfRange => 6#4

/-- The write-1-to-clear effect of a write to STATUS (R34). -/
def clearFlags (f : Status) (v : Word) : Status :=
  { f with done := f.done && !v.getLsbD 1, ovr := f.ovr && !v.getLsbD 3 }

/-- The flags after an error entry (R270). -/
def errorFlags (f : Status) (e : ErrCode) : Status :=
  { f with err := true, errcode := errorCode e, done := false }

/-- The flags after the acceptance of a command (R217). -/
def acceptFlags (f : Status) : Status := { f with done := false, busy := true }

/-- The flags after the completion of a command (R218). -/
def completeFlags (f : Status) : Status := { f with busy := false, done := true }

/-- The flags after a dropped write (R71). -/
def overrunFlags (f : Status) : Status := { f with ovr := true }

/-- The interrupt output (R275), a level computed from the registers. -/
def irq (s : State) : Bool := (s.status.done && s.ctrl.ieDone) || (s.status.err && s.ctrl.ieErr)

end Sys2Proof.Machine
end

