-- ==== Sys2Proof/Machine/Float.lean ====
section
/-! DEFINITION. binary32 arithmetic, each operation exact and then rounded once to nearest even (R9, R120 to R129), and its
lift to samples that may be unspecified (R44, R219).

A finite magnitude is held exactly as a natural number of units of `2^-149`, the smallest subnormal. -/

namespace Sys2Proof.Machine

/-- The canonical quiet NaN (R123). -/
def qNaN : Word := 0x7FC00000#32

/-- The sign, bit 31 (R9). -/
def signBit (w : Word) : Bool := w.getLsbD 31

/-- The biased exponent, bits 30:23 (R9). -/
def expField (w : Word) : Nat := w.toNat / 2 ^ 23 % 256

/-- The fraction, bits 22:0 (R9). -/
def fracField (w : Word) : Nat := w.toNat % 2 ^ 23

/-- A NaN, quiet or signalling, of any payload (R9). -/
def isNaN (w : Word) : Bool := expField w == 255 && fracField w != 0

/-- An infinity of either sign (R9). -/
def isInf (w : Word) : Bool := expField w == 255 && fracField w == 0

/-- The magnitude of a finite pattern in units of `2^-149` (R9, R122). -/
def magnitude (w : Word) : Nat :=
  if expField w = 0 then fracField w else (2 ^ 23 + fracField w) * 2 ^ (expField w - 1)

/-- A zero of either sign. -/
def isZero (w : Word) : Bool := w.toNat % 2 ^ 31 == 0

/-- The pattern with sign `neg` over the low 31 bits `body`. -/
def packSign (neg : Bool) (body : Nat) : Word := BitVec.ofNat 32 ((if neg then 2 ^ 31 else 0) + body)

/-- Infinity with sign `neg` (R9). -/
def infinity (neg : Bool) : Word := packSign neg 0x7F800000

/-- The low 31 bits of the binary32 nearest to `num / den` units of `2^-149`, ties to even, gradual underflow, overflow to
infinity (R121, R122). The exponent and fraction fields of a result `m · 2^sh` with `m` in `[2^23, 2^24)` add up to
`sh · 2^23 + m`, so a carry out of the fraction needs no case of its own. -/
def roundBody (num den : Nat) : Nat :=
  let sh := (num / den).log2 - 23
  let d := den * 2 ^ sh
  let m := num / d
  let r := num % d
  let up := if d < 2 * r ∨ (2 * r = d ∧ m % 2 = 1) then 1 else 0
  min (sh * 2 ^ 23 + m + up) 0x7F800000

/-- `num / den` units of `2^-149`, with sign `neg`, rounded once (R121). -/
def roundWord (neg : Bool) (num den : Nat) : Word := packSign neg (roundBody num den)

/-- The exact value of a finite pattern in units of `2^-149`. -/
def signedUnits (w : Word) : Int := if signBit w then -(magnitude w : Int) else magnitude w

/-- `fadd` (R124). -/
def fadd (a b : Word) : Word :=
  if isNaN a || isNaN b then qNaN
  else if isInf a then (if isInf b && signBit a != signBit b then qNaN else a)
  else if isInf b then b
  else
    let x := signedUnits a + signedUnits b
    if x = 0 then packSign (signBit a && signBit b) 0 else roundWord (decide (x < 0)) x.natAbs 1

/-- A pattern with bit 31 inverted. -/
def flipSign (w : Word) : Word := w ^^^ 0x80000000#32

/-- `fneg` (R127). -/
def fneg (a : Word) : Word := if isNaN a then qNaN else flipSign a

/-- `fsub` (R125). -/
def fsub (a b : Word) : Word := if isNaN a || isNaN b then qNaN else fadd a (flipSign b)

/-- `fmul` (R126). -/
def fmul (a b : Word) : Word :=
  let neg := signBit a != signBit b
  if isNaN a || isNaN b then qNaN
  else if isInf a || isInf b then (if isZero a || isZero b then qNaN else infinity neg)
  else roundWord neg (magnitude a * magnitude b) (2 ^ 149)

/-- `fdiv` (R129): IEEE 754 division, of which the unit uses only division by a power of two. DEDUCED (log 14). -/
def fdiv (a b : Word) : Word :=
  let neg := signBit a != signBit b
  if isNaN a || isNaN b then qNaN
  else if isInf a then (if isInf b then qNaN else infinity neg)
  else if isInf b then packSign neg 0
  else if isZero b then (if isZero a then qNaN else infinity neg)
  else roundWord neg (magnitude a * 2 ^ 149) (magnitude b)

/-- The integer square root, one binary digit of the root at a time from `2^(fuel-1)` down: the largest `r < 2^fuel`
extending `acc` with `r² ≤ n`. -/
def isqrt (n : Nat) : Nat → Nat → Nat
  | 0, acc => acc
  | k + 1, acc => isqrt n k (if (acc + 2 ^ k) * (acc + 2 ^ k) ≤ n then acc + 2 ^ k else acc)

/-- `fsqrt` (R129). The root of `m` units of `2^-149` is `√(m · 2^149)` units; half a unit more stands for the part of an
inexact root below one unit, which lies far below every rounding boundary. -/
def fsqrt (a : Word) : Word :=
  if isNaN a then qNaN
  else if isZero a then a
  else if signBit a then qNaN
  else if isInf a then a
  else
    let n := magnitude a * 2 ^ 149
    let r := isqrt n 214 0
    roundWord false (2 * r + if r * r = n then 0 else 1) 2

/-- A natural number rounded to binary32: exact for the powers of two up to `2^24` the unit divides by (R129, R167). -/
def natToF32 (n : Nat) : Word := roundWord false (n * 2 ^ 149) 1

/-- An operation on samples: unspecified when an operand is (R219). -/
def lift2 (f : Word → Word → Word) : Sample → Sample → Sample
  | some a, some b => some (f a b)
  | _, _ => none

/-- A complex sample (R9, R21). -/
structure Cx where
  re : Sample
  im : Sample
deriving DecidableEq, Repr

/-- The complex multiplier (R130): four products and two sums, each rounded; every component depends on all four operands. -/
def cmul (x y : Cx) : Cx :=
  { re := lift2 fsub (lift2 fmul x.re y.re) (lift2 fmul x.im y.im),
    im := lift2 fadd (lift2 fmul x.re y.im) (lift2 fmul x.im y.re) }

/-- The butterfly (R132): the product `w·b` is computed once and used for both outputs. -/
def bfly (a b w : Cx) : Cx × Cx :=
  let t := cmul w b
  ({ re := lift2 fadd a.re t.re, im := lift2 fadd a.im t.im }, { re := lift2 fsub a.re t.re, im := lift2 fsub a.im t.im })

end Sys2Proof.Machine
end

