-- ==== Sys2Proof/Machine/Operands.lean ====
section
/-! DEFINITION. The window's layout, the sample memory word by word, and the buffers a command names (R21, R22, R60, R64, R82). -/

namespace Sys2Proof.Machine

/-- `LOGNMAX` (R5). -/
def lognmax (p : Params) : Nat := 3 + p.capacity.val

/-- `NMAX`, the words of a sample plane (R5). -/
def nmax (p : Params) : Nat := 2 ^ lognmax p

/-- `PB`, the bytes of a sample plane (R64). -/
def planeBytes (p : Params) : Nat := 2 ^ (lognmax p + 2)

/-- The bytes of the whole window, `8·PB` (R64). -/
def windowBytes (p : Params) : Nat := 8 * planeBytes p

/-- `SCFFT_BASE` (R64). -/
def windowBase (p : Params) : Nat := p.windowIndex * windowBytes p

/-- The number of a plane (R60). -/
def planeNumber : Plane → Nat
  | .aRe => 0
  | .aIm => 1
  | .bRe => 2
  | .bIm => 3

/-- The byte offset of a plane in the window (R64). -/
def planeBase (p : Params) (pl : Plane) : Nat := (1 + planeNumber pl) * planeBytes p

/-- The byte offset of the sample word `i` of a plane (R64). -/
def sampleAddr (p : Params) (pl : Plane) (i : Nat) : Nat := planeBase p pl + 4 * i

/-- The real plane of a buffer (R21, R60). -/
def rePlane : Buf → Plane
  | .A => .aRe
  | .B => .bRe

/-- The imaginary plane of a buffer (R21, R60). -/
def imPlane : Buf → Plane
  | .A => .aIm
  | .B => .bIm

/-- What a byte reads as that the memory does not list: no value, it is unspecified (R44). -/
def unlistedByte (_addr : Nat) : Option Byte := none

/-- The canonical form of the sample memory: addresses strictly rising. What an unlisted byte reads as is no value, so no listed
byte can equal it. -/
abbrev Memory.wf (m : Memory) : Prop := m.Pairwise fun c d => c.1 < d.1

/-- The byte at an address of the window's planes. -/
def byteAt : Memory → Nat → Option Byte
  | [], a => unlistedByte a
  | (b, v) :: m, a => if a = b then some v else byteAt m a

/-- A word from its four bytes (R68); unspecified unless all are stored. -/
def joinBytes : Option Byte → Option Byte → Option Byte → Option Byte → Sample
  | some b0, some b1, some b2, some b3 => some (b3 ++ b2 ++ b1 ++ b0)
  | _, _, _, _ => none

/-- The word at a byte offset, little-endian (R68). -/
def wordAt (m : Memory) (a : Nat) : Sample :=
  joinBytes (byteAt m a) (byteAt m (a + 1)) (byteAt m (a + 2)) (byteAt m (a + 3))

/-- The cells of consecutive words from `a` on; an unspecified word has none (R44, R68). -/
def cellsOf : Nat → List Sample → List Host.Cell
  | _, [] => []
  | a, none :: ws => cellsOf (a + 4) ws
  | a, some w :: ws =>
    (a, w.extractLsb' 0 8) :: (a + 1, w.extractLsb' 8 8) :: (a + 2, w.extractLsb' 16 8) :: (a + 3, w.extractLsb' 24 8) ::
      cellsOf (a + 4) ws

/-- Every write of the sample memory: the consecutive words from the byte offset `a` on become `ws`. -/
def writeWords (m : Memory) (a : Nat) (ws : List Sample) : Memory :=
  m.filter (fun c => decide (c.1 < a)) ++ cellsOf a ws ++ m.filter (fun c => decide (a + 4 * ws.length ≤ c.1))

/-- The sample word `i` of a plane (R21, R60). -/
def sampleAt (s : State) (pl : Plane) (i : Nat) : Sample := wordAt s.mem (sampleAddr s.params pl i)

/-- Element `i` of a buffer: the complex number `(S[b].re[i], S[b].im[i])` (R21). -/
def elemAt (s : State) (b : Buf) (i : Nat) : Cx := { re := sampleAt s (rePlane b) i, im := sampleAt s (imPlane b) i }

/-- `LEN[b]` (R10, R23). -/
def lenWord (s : State) : Buf → Word
  | .A => s.lena
  | .B => s.lenb

/-- `LEN[b]` as the number it is (R37). -/
def len (s : State) (b : Buf) : Nat := (lenWord s b).toNat

/-- The elements `0 .. n-1` of a buffer (R21). -/
def readBuf (s : State) (b : Buf) (n : Nat) : List Cx := (List.range n).map (elemAt s b)

/-- The memory with the elements `0 .. xs.length-1` of a buffer replaced (R21, R82). -/
def writeBuf (s : State) (b : Buf) (xs : List Cx) : Memory :=
  writeWords (writeWords s.mem (planeBase s.params (rePlane b)) (xs.map Cx.re)) (planeBase s.params (imPlane b)) (xs.map Cx.im)

/-- The buffer a command writes (R22). -/
def destOf : Instr → Buf
  | .fft d => d
  | .ifft d => d
  | .cmul d _ _ => d
  | .bitrev d => d
  | .bfstg d _ _ => d
  | .scale d => d
  | .magph d _ => d

/-- The buffer whose length is a command's operand length: D, or S1 for CMUL and MAGPH (R22, R93). -/
def lengthBuf : Instr → Buf
  | .fft d => d
  | .ifft d => d
  | .cmul _ s1 _ => s1
  | .bitrev d => d
  | .bfstg d _ _ => d
  | .scale d => d
  | .magph _ s1 => s1

/-- A command's operand length (R22, R302). -/
def operandLen (i : Instr) (s : State) : Nat := len s (lengthBuf i)

end Sys2Proof.Machine
end

