-- ==== Sys2Proof/Machine/Ops.lean ====
section
/-! DEFINITION. The operations shared by the commands and by the host's transactions: validation (R266), the error entry (R270)
and the resets that alone lead back out of the fault state (R272, R300, R302), acceptance and completion (R215 to R218), and the
life of a command in the unit. -/

namespace Sys2Proof.Machine

/-- `ispow2(n)` (R8). -/
def isPow2 (n : Nat) : Bool := n != 0 && n &&& (n - 1) == 0

/-- The checks of a transform command on the length `n` (R162). -/
def checkLength (p : Params) (n : Nat) : Option ErrCode :=
  if !isPow2 n then some .nonPowerOfTwoLength else if nmax p < n then some .lengthTooLarge else none

/-- Validation of FFT, IFFT, BITREV and SCALE (R162). -/
def checkTransform (d : Buf) (s : State) : Option ErrCode := checkLength s.params (len s d)

/-- Validation of BFSTG (R162, R264): the stage is looked at when the length is legal. -/
def checkStage (d : Buf) (stg : Nat) (s : State) : Option ErrCode :=
  match checkTransform d s with
  | some e => some e
  | none => if stg < 1 ∨ (len s d).log2 < stg then some .stageOutOfRange else none

/-- The checks of a command that names several buffers: `both`, the command names A and B; `n`, its operand length (R191,
R201). -/
def checkPair (both : Bool) (n : Nat) (s : State) : Option ErrCode :=
  if both && s.lena != s.lenb then some .lengthMismatch
  else if nmax s.params < n then some .lengthTooLarge
  else none

/-- Validation of CMUL (R191). -/
def checkCmul (d s1 s2 : Buf) (s : State) : Option ErrCode :=
  checkPair (!(d == s1 && s1 == s2)) (len s s1) s

/-- Validation of MAGPH (R201). -/
def checkMagph (d s1 : Buf) (s : State) : Option ErrCode :=
  if !s.params.hasMagph then some .illegalCommand else checkPair (d != s1) (len s s1) s

/-- `Validate` of a word that decodes (R266); `none` is the code 0. -/
def validate : Instr → State → Option ErrCode
  | .fft d, s => checkTransform d s
  | .ifft d, s => checkTransform d s
  | .cmul d s1 s2, s => checkCmul d s1 s2 s
  | .bitrev d, s => checkTransform d s
  | .bfstg d stg _, s => checkStage d stg s
  | .scale d, s => checkTransform d s
  | .magph d s1, s => checkMagph d s1 s

/-- `Validate(w)` (R266). -/
def validateWord (w : Word) (s : State) : Option ErrCode :=
  match decodeWord w with
  | .ok i => validate i s
  | .error _ => some .illegalCommand

/-- A dropped write (R71): OVR is set, nothing else happens. -/
def dropWrite (s : State) : State := { s with status := overrunFlags s.status }

/-- `ErrorEntry(e, w)` (R270). -/
def errorEntry (e : ErrCode) (w : Word) (s : State) : State :=
  { s with status := errorFlags s.status e, errinfo := w }

/-- `Accept(w)` (R217). -/
def accept (w : Word) (s : State) : State := { s with cmd := w, status := acceptFlags s.status }

/-- `Complete` (R218), with the buffer update's memory. -/
def complete (m : Memory) (s : State) : State := { s with mem := m, status := completeFlags s.status }

/-- The memory a soft reset leaves: the destination operand of a command in flight becomes unspecified (R44, R302). DEDUCED (log
12): at most `NMAX` words of it. -/
def abandonOperand (s : State) : Memory :=
  if s.status.busy then
    match decodeWord s.cmd with
    | .ok i => writeBuf s (destOf i) (List.replicate (min (operandLen i s) (nmax s.params)) { re := none, im := none })
    | .error _ => s.mem
  else s.mem

/-- The registers after either reset (R43); the host's fields stay (log 16). -/
def clearRegisters (s : State) : State :=
  { s with ctrl := ctrlReset, status := statusReset, cmd := 0#32, errinfo := 0#32, lena := 0#32, lenb := 0#32 }

/-- `SoftReset()` (R302). -/
def softReset (s : State) : State := clearRegisters { s with mem := abandonOperand s }

/-- The hard reset (R300): every sample word becomes unspecified. -/
def hardReset (s : State) : State := clearRegisters { s with mem := [] }

/-- An arbitrary value, drawn afresh (R10). -/
def drawFree (s : State) : Word × State := (Config.freeWord s.draws, { s with draws := s.draws + 1 })

/-- The life of the command `i` in the unit, `check` its validation and `update` its buffer update.

BUSY: the command in flight is `i`, and the engine takes its one step, `Complete` (R218); a command in flight has passed its
validation, and the model stops in the states, which no run reaches, where it has not.
Otherwise the host has just written the word of `i` to CMD (R215): dropped in the fault state, else validated, and then either
the error is taken (R216, R270) or the command accepted (R217). DESIGN CHOICE (log 10). -/
def runCommand (i : Instr) (check : Option ErrCode) (update : State → Memory) (s : State) : Host.Outcome State Fault Refusal :=
  if s.status.busy then
    match check with
    | none => .next (complete (update s) s)
    | some _ => .fault .unvalidatedCommand
  else if s.status.err then .next (dropWrite s)
  else
    match check with
    | some e => .next (errorEntry e (encode i) s)
    | none => .next (accept (encode i) s)

end Sys2Proof.Machine
end

