-- ==== Sys2Proof/Machine/Cmul.lean ====
section
/-! DEFINITION. The spectral multiplier CMUL and its alias SQR (R190 to R194). -/

namespace Sys2Proof.Machine

/-- The buffer update of CMUL (R190): every product is computed from the buffers before the command, so any aliasing of the
operands is harmless (R193). -/
def cmulUpdate (d s1 s2 : Buf) (s : State) : Memory :=
  writeBuf s d (List.zipWith cmul (readBuf s s1 (len s s1)) (readBuf s s2 (len s s1)))

/-- `CMUL d, s1, s2` (R190, R191). -/
def execCmul (d s1 s2 : Buf) (s : State) : Host.Outcome State Fault Refusal :=
  runCommand (.cmul d s1 s2) (checkCmul d s1 s2 s) (cmulUpdate d s1 s2) s

/-- `SQR d, s`, the assembler's name of `CMUL d, s, s` (R194). -/
def sqr (d s : Buf) : Instr := .cmul d s s

end Sys2Proof.Machine
end

