-- ==== Sys2Proof/Machine/Atan2.lean ====
section
/-! DEFINITION. The arctangent of MAGPH (R203, R204).

The default `ATAN2_32` is the correctly rounded function. The model encloses the real arctangent between two fractions and
takes the rounded value when both ends round alike; otherwise the value is the free function `Config.atan2` (log 4). -/

namespace Sys2Proof.Machine

/-- `⌊π · 2^200⌋`. -/
def piLong : Nat := 0x3243F6A8885A308D313198A2E03707344A4093822299F31D008

/-- Euler's series for the arctangent of `a/b` from its term `t` of index `n` on: each term is the one before it times
`(2n+2)/(2n+3) · a²/(a²+b²)`. All terms are positive and rounded down, so the sum is a lower bound. -/
def eulerSeries (a2 h2 : Nat) : Nat → Nat → Nat → Nat
  | 0, _, _ => 0
  | fuel + 1, n, t =>
    if t = 0 then 0 else t + eulerSeries a2 h2 fuel (n + 1) (t * (2 * n + 2) * a2 / ((2 * n + 3) * h2))

/-- The fraction bits for the ratio `a/b`: enough to tell `atan z` from `z` when `z` is as small as a subnormal. -/
def atanBits (a b : Nat) : Nat := 160 + 4 * (b.log2 - a.log2)

/-- A lower bound of `atan (a/b)`, `0 < a ≤ b`, in units of `2^-(atanBits a b)`. -/
def atanLow (a b : Nat) : Nat :=
  let h2 := a * a + b * b
  eulerSeries (a * a) h2 (atanBits a b + 4) 0 (a * b * 2 ^ atanBits a b / h2)

/-- What the sum can lack: fewer than three units for each term and the tail. -/
def atanSlack (a b : Nat) : Nat := 4 * (atanBits a b + 4)

/-- Bounds of the angle of the point `(b, a)`, `a, b > 0`, as numerators over `2^(k + 201)`, and `k`. -/
def quadrantAngle (a b : Nat) : Nat × Nat × Nat :=
  if a ≤ b then
    let k := atanBits a b
    (atanLow a b * 2 ^ 201, (atanLow a b + atanSlack a b) * 2 ^ 201, k)
  else
    let k := atanBits b a
    (piLong * 2 ^ k - (atanLow b a + atanSlack b a) * 2 ^ 201, (piLong + 1) * 2 ^ k - atanLow b a * 2 ^ 201, k)

/-- Bounds of the angle in `(0, π)` of the point with the magnitudes `a`, `b` of its coordinates: `π` less the angle when the
real part is negative. -/
def halfPlaneAngle (left : Bool) (a b : Nat) : Nat × Nat × Nat :=
  match quadrantAngle a b with
  | (lo, hi, k) => if left then (2 * piLong * 2 ^ k - hi, 2 * (piLong + 1) * 2 ^ k - lo, k) else (lo, hi, k)

/-- `RN32 (atan2 y x)` for finite nonzero operands (R204, last row), where the bounds settle it. -/
def atan2Finite (y x : Word) : Word :=
  match halfPlaneAngle (signBit x) (magnitude y) (magnitude x) with
  | (lo, hi, k) =>
    let body := roundBody (lo * 2 ^ 149) (2 ^ (k + 201))
    if body = roundBody (hi * 2 ^ 149) (2 ^ (k + 201)) then packSign (signBit y) body else Config.atan2 y x

/-- The default `ATAN2_32` (R204), row by row. -/
def atan2Rounded (y x : Word) : Word :=
  let neg := signBit y
  if isNaN y || isNaN x then qNaN
  else if isInf y then
    if isInf x then packSign neg (if signBit x then 0x4016CBE4 else 0x3F490FDB) else packSign neg 0x3FC90FDB
  else if isZero y then packSign neg (if signBit x then 0x40490FDB else 0)
  else if isZero x then packSign neg 0x3FC90FDB
  else if isInf x then packSign neg (if signBit x then 0x40490FDB else 0)
  else atan2Finite y x

/-- `ATAN2_32` of the unit's configuration (R203). -/
def atan2F32 (p : Params) (y x : Word) : Word := if p.atan2Default then atan2Rounded y x else Config.atan2 y x

/-- One element of MAGPH (R200): magnitude into the real part, phase into the imaginary part. -/
def magPhase (p : Params) (x : Cx) : Cx :=
  { re := (lift2 fadd (lift2 fmul x.re x.re) (lift2 fmul x.im x.im)).map fsqrt,
    im := lift2 (atan2F32 p) x.im x.re }

end Sys2Proof.Machine
end

