-- ==== Sys2Proof/Machine/MagPhase.lean ====
section
/-! DEFINITION. The optional command MAGPH (R200 to R206). -/

namespace Sys2Proof.Machine

/-- The buffer update of MAGPH (R200). -/
def magphUpdate (d s1 : Buf) (s : State) : Memory :=
  writeBuf s d ((readBuf s s1 (len s s1)).map (magPhase s.params))

/-- `MAGPH d, s1` (R200, R201). -/
def execMagph (d s1 : Buf) (s : State) : Host.Outcome State Fault Refusal :=
  runCommand (.magph d s1) (checkMagph d s1 s) (magphUpdate d s1) s

end Sys2Proof.Machine
end

