-- ==== Sys2Proof/Machine/Twiddle.lean ====
section
/-! DEFINITION. The twiddle ROM and the twiddle factors (R39, R134 to R136), and bit reversal (R137).

R134 gives each ROM entry as a real number rounded to the nearest binary32. The model evaluates the sine and the cosine in
fixed point with 128 fraction bits, `trigSlack` bounding the error of that evaluation, and takes the rounded value when both
ends of the error interval round alike; otherwise the entry is a free value (log 3). -/

namespace Sys2Proof.Machine

/-- `⌊π · 2^128⌋`. -/
def piFixed : Nat := 0x3243F6A8885A308D313198A2E03707344

/-- A bound on the error of `sinFixed` and `cosFixed`, in units of `2^-128`: their twenty terms are off by a few units each. -/
def trigSlack : Nat := 2 ^ 12

/-- `⌊2π · r / 2^l⌋` in units of `2^-128`. -/
def angleFixed (r l : Nat) : Nat := 2 * piFixed * r / 2 ^ l

/-- The alternating series `t - t·φ²/((k+1)(k+2)) + …` in units of `2^-128`: the power series of the cosine from `k = 0`, of
the sine from `k = 1`. -/
def altSeries (phi : Nat) : Nat → Nat → Nat → Nat
  | 0, _, _ => 0
  | fuel + 1, k, t => t - altSeries phi fuel (k + 2) (t * (phi * phi) / 2 ^ 256 / ((k + 1) * (k + 2)))

/-- `cos φ` for `0 ≤ φ ≤ π/4`, up to `trigSlack`. -/
def cosFixed (phi : Nat) : Nat := altSeries phi 20 0 (2 ^ 128)

/-- `sin φ` for `0 ≤ φ ≤ π/4`, up to `trigSlack`. -/
def sinFixed (phi : Nat) : Nat := altSeries phi 20 1 phi

/-- The rounding of a real number within `trigSlack` of `v`, both in units of `2^-128`: settled when both ends of the interval
round alike, else a free value (log 3). -/
def settleFixed (v : Nat) : Nat :=
  let lo := roundBody ((v - trigSlack) * 2 ^ 21) 1
  if lo = roundBody ((v + trigSlack) * 2 ^ 21) 1 then lo else (Config.romBody v).toNat

/-- `RN32 (cos (2π·r/2^l))`, sign apart, for an angle in the first octant; exactly 1 at the angle 0 (R134). -/
def cosBody (r l : Nat) : Nat := if r = 0 then 0x3F800000 else settleFixed (cosFixed (angleFixed r l))

/-- `RN32 (sin (2π·r/2^l))` for an angle in the first octant; exactly 0 at the angle 0 (R134). -/
def sinBody (r l : Nat) : Nat := if r = 0 then 0 else settleFixed (sinFixed (angleFixed r l))

/-- A stored component: a value that is exactly zero is stored as `+0` (R134). -/
def romWord (neg : Bool) (body : Nat) : Word := if body = 0 then 0#32 else packSign neg body

/-- `TW[k].re` (R134): `cos θ` for `θ = 2π·k/2^l` in `[0, π)`, reduced to the first octant. -/
def romRe (l k : Nat) : Word :=
  let q := 2 ^ l / 4
  if 8 * k < 2 ^ l then romWord false (cosBody k l)
  else if 4 * k < 2 ^ l then romWord false (sinBody (q - k) l)
  else if 8 * k < 3 * 2 ^ l then romWord true (sinBody (k - q) l)
  else romWord true (cosBody (2 * q - k) l)

/-- `TW[k].im` (R134): `-sin θ` for `θ = 2π·k/2^l` in `[0, π)`. -/
def romIm (l k : Nat) : Word :=
  let q := 2 ^ l / 4
  if 8 * k < 2 ^ l then romWord true (sinBody k l)
  else if 4 * k < 2 ^ l then romWord true (cosBody (q - k) l)
  else if 8 * k < 3 * 2 ^ l then romWord true (cosBody (k - q) l)
  else romWord true (sinBody (2 * q - k) l)

/-- The entry `TW[k]` of the twiddle ROM of a unit with `LOGNMAX = l` (R39, R134). -/
def romEntry (l k : Nat) : Word × Word := (romRe l k, romIm l k)

/-- The address the engine reads for stage `s`, position `j` (R136). -/
def romAddress (l s j : Nat) : Nat := j * 2 ^ (l - s)

/-- `twf(s, j)` (R135). -/
def twiddleForward (l s j : Nat) : Word × Word := romEntry l (romAddress l s j)

/-- `twi(s, j)` (R135): the conjugate, its imaginary sign bit inverted. -/
def twiddleInverse (l s j : Nat) : Word × Word :=
  ((twiddleForward l s j).1, fneg (twiddleForward l s j).2)

/-- The twiddle factor of a direction as an operand of the complex multiplier (R92, R135). -/
def twiddle (l : Nat) (inv : Dir) (s j : Nat) : Cx :=
  let w := match inv with
    | .forward => twiddleForward l s j
    | .inverse => twiddleInverse l s j
  { re := some w.1, im := some w.2 }

/-- `rev_n(i)` (R137): the `n`-bit representation of `i` read backwards. -/
def bitReverse : Nat → Nat → Nat
  | 0, _ => 0
  | n + 1, i => i % 2 * 2 ^ n + bitReverse n (i / 2)

end Sys2Proof.Machine
end

