-- ==== Sys2Proof/Machine/Transform.lean ====
section
/-! DEFINITION. The transform commands FFT, IFFT, BITREV, BFSTG and SCALE (R160 to R171). -/

namespace Sys2Proof.Machine

/-- Element `i` of an array of complex samples. -/
def elem (xs : List Cx) (i : Nat) : Cx := xs.getD i { re := none, im := none }

/-- The bit-reversal permutation of `2^n` elements (R139, R163): `new[i] = old[rev_n(i)]`. -/
def bitrevSeq (n : Nat) (xs : List Cx) : List Cx := (List.range xs.length).map fun i => elem xs (bitReverse n i)

/-- One butterfly stage with half-block size `h` (R138, R165): the element at offset `o` of its block is the top output of the
butterfly `j = o` when `o < h`, else the bottom output of the butterfly `j = o - h`. Every element is computed from the array
before the stage, so the order inside a stage does not matter (R166). -/
def stageSeq (tw : Nat → Cx) (h : Nat) (xs : List Cx) : List Cx :=
  (List.range xs.length).map fun i =>
    let o := i % (2 * h)
    if o < h then (bfly (elem xs i) (elem xs (i + h)) (tw o)).1
    else (bfly (elem xs (i - h)) (elem xs i) (tw (o - h))).2

/-- The stage `stg` of a transform on a unit of capacity `2^l` (R165). -/
def stageOf (l : Nat) (inv : Dir) (stg : Nat) (xs : List Cx) : List Cx :=
  stageSeq (twiddle l inv stg) (2 ^ (stg - 1)) xs

/-- The stages `1 .. n` in this order (R160, R168). -/
def stagesSeq (l : Nat) (inv : Dir) : Nat → List Cx → List Cx
  | 0, xs => xs
  | n + 1, xs => stageOf l inv (n + 1) (stagesSeq l inv n xs)

/-- The division of every component by the length (R167). -/
def scaleSeq (n : Nat) (xs : List Cx) : List Cx :=
  xs.map fun x => { re := x.re.map (fdiv · (natToF32 n)), im := x.im.map (fdiv · (natToF32 n)) }

/-- The forward transform of `n = 2^k` elements (R160). -/
def fftSeq (l : Nat) (xs : List Cx) : List Cx :=
  stagesSeq l .forward xs.length.log2 (bitrevSeq xs.length.log2 xs)

/-- The inverse transform (R161). -/
def ifftSeq (l : Nat) (xs : List Cx) : List Cx :=
  scaleSeq xs.length (stagesSeq l .inverse xs.length.log2 (bitrevSeq xs.length.log2 xs))

/-- A command that replaces its operand buffer in place by a function of it (R82, R160 to R167). -/
def inPlace (d : Buf) (f : List Cx → List Cx) (s : State) : Memory := writeBuf s d (f (readBuf s d (len s d)))

/-- The buffer update of FFT (R160). -/
def fftUpdate (d : Buf) (s : State) : Memory := inPlace d (fftSeq (lognmax s.params)) s

/-- The buffer update of IFFT (R161). -/
def ifftUpdate (d : Buf) (s : State) : Memory := inPlace d (ifftSeq (lognmax s.params)) s

/-- The buffer update of BITREV (R163). -/
def bitrevUpdate (d : Buf) (s : State) : Memory := inPlace d (bitrevSeq (len s d).log2) s

/-- The buffer update of BFSTG (R165). -/
def bfstgUpdate (d : Buf) (stg : Nat) (inv : Dir) (s : State) : Memory := inPlace d (stageOf (lognmax s.params) inv stg) s

/-- The buffer update of SCALE (R167). -/
def scaleUpdate (d : Buf) (s : State) : Memory := inPlace d (scaleSeq (len s d)) s

/-- `FFT d` (R160, R162). -/
def execFft (d : Buf) (s : State) : Host.Outcome State Fault Refusal :=
  runCommand (.fft d) (checkTransform d s) (fftUpdate d) s

/-- `IFFT d` (R161, R162). -/
def execIfft (d : Buf) (s : State) : Host.Outcome State Fault Refusal :=
  runCommand (.ifft d) (checkTransform d s) (ifftUpdate d) s

/-- `BITREV d` (R162, R163). -/
def execBitrev (d : Buf) (s : State) : Host.Outcome State Fault Refusal :=
  runCommand (.bitrev d) (checkTransform d s) (bitrevUpdate d) s

/-- `BFSTG d, stg, F|I` (R162, R165). -/
def execBfstg (d : Buf) (stg : Nat) (inv : Dir) (s : State) : Host.Outcome State Fault Refusal :=
  runCommand (.bfstg d stg inv) (checkStage d stg s) (bfstgUpdate d stg inv) s

/-- `SCALE d` (R162, R167). -/
def execScale (d : Buf) (s : State) : Host.Outcome State Fault Refusal :=
  runCommand (.scale d) (checkTransform d s) (scaleUpdate d) s

end Sys2Proof.Machine
end

