-- ==== Sys2Proof/Machine/Dispatch.lean ====
section
/-! DEFINITION. One arm per command (R219). -/

namespace Sys2Proof.Machine

/-- What the unit does with the command `i`: its issue when the unit is not busy, its completion when it is (R215 to R219). -/
def exec (i : Instr) (s : State) : Host.Outcome State Fault Refusal :=
  match i with
  | .fft d => Sys2Proof.Machine.execFft d s
  | .ifft d => Sys2Proof.Machine.execIfft d s
  | .cmul d s1 s2 => Sys2Proof.Machine.execCmul d s1 s2 s
  | .bitrev d => Sys2Proof.Machine.execBitrev d s
  | .bfstg d stg inv => Sys2Proof.Machine.execBfstg d stg inv s
  | .scale d => Sys2Proof.Machine.execScale d s
  | .magph d s1 => Sys2Proof.Machine.execMagph d s1 s

end Sys2Proof.Machine
end

