-- ==== Sys2Proof/Machine/Host.lean ====
section
/-! DEFINITION. The host's transactions on the unit (R64 to R74, R105), command issue (R215), and the driver programs: `wait`,
`ack`, `ackovr`, `srst` (R106, R222 to R225) and CONVOLVE (R235 to R244). -/

namespace Sys2Proof.Machine

/-- The writes of R71 are dropped. -/
def locked (s : State) : Bool := s.status.busy || s.status.err

/-- The state after a read has returned `v` to the host. -/
def pushRead (v : Word) (s : State) : State := { s with reads := v :: s.reads }

/-- The ID register (R31). -/
def idWord : Word := 0x53434601#32

/-- The CAP register (R32). -/
def capWord (p : Params) : Word := BitVec.ofNat 32 (lognmax p + if p.hasMagph then 256 else 0)

/-- The value of a register (R31 to R38): a read has no side effect (R69). -/
def regValue (r : Reg) (s : State) : Word :=
  match r with
  | .id => idWord
  | .cap => capWord s.params
  | .ctrl => ctrlWord s.ctrl
  | .status => statusWord s.status
  | .cmd => s.cmd
  | .errinfo => s.errinfo
  | .lena => s.lena
  | .lenb => s.lenb

/-- A write to CTRL (R33, R70): SRST, or else the interrupt enables (R223). -/
def writeCtrl (v : Word) (s : State) : State :=
  if v.getLsbD 0 then softReset s else { s with ctrl := { ieDone := v.getLsbD 1, ieErr := v.getLsbD 2 } }

/-- A write to STATUS (R34, R224). -/
def writeStatus (v : Word) (s : State) : State := { s with status := clearFlags s.status v }

/-- A write to LENA (R37, R70). -/
def writeLena (v : Word) (s : State) : State := if locked s then dropWrite s else { s with lena := v }

/-- A write to LENB (R38, R70). -/
def writeLenb (v : Word) (s : State) : State := if locked s then dropWrite s else { s with lenb := v }

/-- `IssueCommand(w)` (R215): a word that is no command takes the error entry here (R265), a command meets its meaning. -/
def issueCommand (w : Word) (s : State) : Host.Outcome State Fault Refusal :=
  if locked s then .next (dropWrite s)
  else
    match decodeWord w with
    | .ok i => exec i s
    | .error _ => .next (errorEntry .illegalCommand w s)

/-- `wr REG, v` (R70). -/
def regWrite (r : Reg) (v : Word) (s : State) : Host.Outcome State Fault Refusal :=
  match r with
  | .id => .next s
  | .cap => .next s
  | .ctrl => .next (writeCtrl v s)
  | .status => .next (writeStatus v s)
  | .cmd => issueCommand v s
  | .errinfo => .next s
  | .lena => .next (writeLena v s)
  | .lenb => .next (writeLenb v s)

/-- A read answered with `any` (R10). -/
def pushFree (s : State) : State := pushRead (drawFree s).1 (drawFree s).2

/-- `rs b.plane[i]`: any value while BUSY (R72) or of an unspecified word (R44, R74), else the stored pattern. -/
def sampleRead (pl : Plane) (i : Nat) (s : State) : Host.Outcome State Fault Refusal :=
  if nmax s.params ≤ i then .refused .noSuchSample
  else if s.status.busy then .next (pushFree s)
  else
    match sampleAt s pl i with
    | some v => .next (pushRead v s)
    | none => .next (pushFree s)

/-- `ws b.plane[i], v` (R71, R73). -/
def sampleWrite (pl : Plane) (i : Nat) (v : Word) (s : State) : Host.Outcome State Fault Refusal :=
  if nmax s.params ≤ i then .refused .noSuchSample
  else if locked s then .next (dropWrite s)
  else .next { s with mem := writeWords s.mem (sampleAddr s.params pl i) [some v] }

/-- What a word offset of the window holds (R64). -/
inductive Target where
  | reg (r : Reg)
  | sample (pl : Plane) (i : Nat)
  | reserved
deriving DecidableEq, Repr

/-- The number of a register (R28). -/
def regNumber : Reg → Nat
  | .id => 0
  | .cap => 1
  | .ctrl => 2
  | .status => 3
  | .cmd => 4
  | .errinfo => 5
  | .lena => 6
  | .lenb => 7

/-- The register of a number below 8 (R28). -/
def regOfNumber : Nat → Reg
  | 0 => .id
  | 1 => .cap
  | 2 => .ctrl
  | 3 => .status
  | 4 => .cmd
  | 5 => .errinfo
  | 6 => .lena
  | _ => .lenb

/-- The plane of a number below 4 (R60). -/
def planeOfNumber : Nat → Plane
  | 0 => .aRe
  | 1 => .aIm
  | 2 => .bRe
  | _ => .bIm

/-- The content of the window at a byte offset that is a multiple of 4 (R64, R65). -/
def targetOf (p : Params) (off : Nat) : Target :=
  if off < 32 then .reg (regOfNumber (off / 4))
  else if off < planeBytes p then .reserved
  else if off < 5 * planeBytes p then .sample (planeOfNumber (off / planeBytes p - 1)) (off % planeBytes p / 4)
  else .reserved

/-- The window holds the address (R64). -/
def inWindow (p : Params) (addr : Nat) : Bool := decide (windowBase p ≤ addr ∧ addr < windowBase p + windowBytes p)

/-- The access is one aligned 32-bit word (R67). -/
def isAlignedWord (addr size : Nat) : Bool := size == 4 && addr % 4 == 0

/-- `MemRead(addr, size)` (R66): the transaction the offset names; a reserved offset reads 0 (R65). -/
def busRead (addr size : Nat) (s : State) : Host.Outcome State Fault Refusal :=
  if !inWindow s.params addr then .refused .outsideWindow
  else if !isAlignedWord addr size then .refused .notAnAlignedWord
  else
    match targetOf s.params (addr - windowBase s.params) with
    | .reg r => .next (pushRead (regValue r s) s)
    | .sample pl i => sampleRead pl i s
    | .reserved => .next (pushRead 0#32 s)

/-- `MemWrite(addr, size, v)` (R66): the transaction the offset names; a reserved offset ignores it (R65). -/
def busWrite (addr size : Nat) (v : Word) (s : State) : Host.Outcome State Fault Refusal :=
  if !inWindow s.params addr then .refused .outsideWindow
  else if !isAlignedWord addr size then .refused .notAnAlignedWord
  else
    match targetOf s.params (addr - windowBase s.params) with
    | .reg r => regWrite r v s
    | .sample pl i => sampleWrite pl i v s
    | .reserved => .next s

/-- `cmd X` (R105). -/
def cmdOp (i : Instr) : HostOp := .wr .cmd (encode i)

/-- `ack` (R224). -/
def ackOp : HostOp := .wr .status 0x2#32

/-- `ackovr` (R224). -/
def ackovrOp : HostOp := .wr .status 0x8#32

/-- `srst` (R225). -/
def srstOp : HostOp := .wr .ctrl 0x1#32

/-- One poll of `wait` (R222): it goes on waiting while the value read has BUSY set. -/
def waitPoll (s : State) : State :=
  let t := pushRead (statusWord s.status) s
  if s.status.busy then { t with script := .wait :: t.script } else t

/-- What is left of the host's script when the driver gives up the transactions of its call: the script after the call's last
operation, the return of the output (R244). -/
def dropCall : List HostOp → List HostOp
  | [] => []
  | .returnOutput _ :: rest => rest
  | _ :: rest => dropCall rest

/-- `abort(e)` for an error the unit reports in the STATUS value `v` (R244): the call's remaining transactions are given up, the
driver leaves the fault state by `srst` and raises the code. DESIGN CHOICE (log 7): the caller then goes on with its script. -/
def abortIfErr (s : State) : State :=
  let v := s.reads.headD 0#32
  if v.getLsbD 2 then { s with script := srstOp :: dropCall s.script, result := some (.error (v.extractLsb' 8 4)) } else s

/-- Step 9 of the driver (R241): an error of the driver's own, so the unit is not reset (R244). -/
def abortIfLensDiffer (s : State) : State :=
  match s.reads with
  | b :: a :: _ =>
    if a = b then s else { s with script := dropCall s.script, result := some (.error (errorCode .lengthMismatch)) }
  | _ => s

/-- `nextpow2(x)`, `x ≥ 1` (R237). -/
def nextPow2 (x : Nat) : Nat := if isPow2 x then x else 2 ^ (x.log2 + 1)

/-- Steps 5 and 6 of the driver (R240): the real plane zero-padded to `n`, the imaginary plane zero. -/
def loadOps (re im : Plane) (n : Nat) (xs : List Word) : List HostOp :=
  (List.range n).flatMap fun i => [.ws re i (xs.getD i 0#32), .ws im i 0#32]

/-- One command of the driver: issue, wait, abort on error (R240, steps 7 to 11). -/
def commandOps (i : Instr) : List HostOp := [cmdOp i, .wait, .abortIfErr]

/-- Steps 4 to 13 of the driver for the transform length `n` (R240). -/
def convolveOps (n : Nat) (a b : List Word) : List HostOp :=
  [.wr .lena (BitVec.ofNat 32 n), .wr .lenb (BitVec.ofNat 32 n)] ++ loadOps .aRe .aIm n a ++ loadOps .bRe .bIm n b ++
    commandOps (.fft .A) ++ commandOps (.fft .B) ++ [.rd .lena, .rd .lenb, .abortIfLensDiffer] ++
    commandOps (.cmul .A .A .B) ++ commandOps (.ifft .A) ++ (List.range n).map (fun i => .rs .aRe i) ++ [.returnOutput n]

/-- `CONVOLVE out, a, b` (R240): steps 1 to 3, which touch nothing of the unit (R238, R239), then the sequence. -/
def convolve (a b : List Word) (s : State) : State :=
  if a = [] ∨ b = [] then { s with result := some (.error (errorCode .emptyInput)) }
  else if nmax s.params < nextPow2 (a.length + b.length) then { s with result := some (.error (errorCode .lengthTooLarge)) }
  else { s with script := convolveOps (nextPow2 (a.length + b.length)) a b ++ s.script }

/-- One step of the host, already taken off its script (R66, R76). -/
def hostOp (op : HostOp) (s : State) : Host.Outcome State Fault Refusal :=
  match op with
  | .rd r => .next (pushRead (regValue r s) s)
  | .wr r v => regWrite r v s
  | .rs pl i => sampleRead pl i s
  | .ws pl i v => sampleWrite pl i v s
  | .memRead addr size => busRead addr size s
  | .memWrite addr size v => busWrite addr size v s
  | .reset => .next (hardReset s)
  | .wait => .next (waitPoll s)
  | .abortIfErr => .next (abortIfErr s)
  | .abortIfLensDiffer => .next (abortIfLensDiffer s)
  | .returnOutput n => .next { s with result := some (.output (s.reads.take n).reverse) }
  | .convolve a b => .next (convolve a b s)

/-- The host's turn: its next operation, or nothing when its script is done (R313). -/
def hostTurn (s : State) : Host.Outcome State Fault Refusal :=
  match s.script with
  | [] => .next s
  | op :: rest => hostOp op { s with script := rest }

/-- The engine's turn: its one step when BUSY is 1, else none (R218). -/
def engineTurn (s : State) : Host.Outcome State Fault Refusal :=
  if s.status.busy then
    match decodeWord s.cmd with
    | .ok i => exec i s
    | .error _ => .fault .busyWithoutCommand
  else .next s

/-- Who moves next: as scheduled, else the engine when it can move (R220). DESIGN CHOICE (log 5). -/
def nextAgent (s : State) : Agent :=
  match s.sched with
  | a :: _ => a
  | [] => if s.status.busy then .engine else .host

/-- The turn is taken off the schedule. -/
def passTurn (s : State) : State := { s with sched := s.sched.tail }

end Sys2Proof.Machine
end

