-- ==== Sys2Proof/Machine/Step.lean ====
section
/-! DEFINITION. One step of the machine: one agent's atomic step (R6, R7). -/

namespace Sys2Proof.Machine

/-- One step (R6, R7): the agent whose turn it is moves. -/
def step (s : State) : Host.Outcome State Fault Refusal :=
  match nextAgent s with
  | .host => hostTurn (passTurn s)
  | .engine => engineTurn (passTurn s)

/-- The state with a command word as the host's next transaction, `wr CMD, w`, the host's turn next and the unit idle: the unit
fetches no instructions (R24), a command reaches it by that write alone (R90). -/
def State.withFetchWord (s : State) (nbits w : Nat) : State :=
  { s with
    sched := .host :: s.sched
    script := .wr .cmd (BitVec.ofNat 32 (w % 2 ^ nbits)) :: s.script
    status := { s.status with busy := false, err := false, errcode := 0#4 } }

end Sys2Proof.Machine
end

