-- ==== Sys2Proof/Machine/Loops.lean ====
section
/-! DEFINITION. The spec's loop nests as it writes them, in place and step by step (R138, R139, R163, R165, R168), and a command's
whole life without a host transaction in between. The commands' meanings are stated to agree with them. -/

namespace Sys2Proof.Machine

/-- One iteration of the bit-reversal loop (R139, R163). -/
def swapStep (n : Nat) (xs : List Cx) (i : Nat) : List Cx :=
  let r := bitReverse n i
  if i < r then (xs.set i (elem xs r)).set r (elem xs i) else xs

/-- The butterflies `(base, j)` of a stage of length `len` and half-block size `h` (R138). -/
def stagePairs (len h : Nat) : List (Nat × Nat) :=
  (List.range (len / (2 * h))).flatMap fun b => (List.range h).map fun j => (b * (2 * h), j)

/-- The two indices a butterfly reads and writes (R138). -/
def pairIndices (h : Nat) (p : Nat × Nat) : List Nat := [p.1 + p.2, p.1 + p.2 + h]

/-- One butterfly in place (R133, R165): both elements are read before either is written. -/
def butterflyStep (tw : Nat → Cx) (h : Nat) (xs : List Cx) (p : Nat × Nat) : List Cx :=
  let r := bfly (elem xs (p.1 + p.2)) (elem xs (p.1 + p.2 + h)) (tw p.2)
  (xs.set (p.1 + p.2) r.1).set (p.1 + p.2 + h) r.2

/-- The buffer update of each command (R219). -/
def updateOf : Instr → State → Memory
  | .fft d, s => fftUpdate d s
  | .ifft d, s => ifftUpdate d s
  | .cmul d s1 s2, s => cmulUpdate d s1 s2 s
  | .bitrev d, s => bitrevUpdate d s
  | .bfstg d stg inv, s => bfstgUpdate d stg inv s
  | .scale d, s => scaleUpdate d s
  | .magph d s1, s => magphUpdate d s1 s

/-- A command issued and then awaited: the write to CMD, then the engine's turn (R215, R218). -/
def runOne (i : Instr) (s : State) : Host.Outcome State Fault Refusal :=
  match issueCommand (encode i) s with
  | .next t => engineTurn t
  | .fault f => .fault f
  | .refused r => .refused r

/-- Commands issued one after the other, each awaited (R169). -/
def runAll : List Instr → State → Host.Outcome State Fault Refusal
  | [], s => .next s
  | i :: is, s =>
    match runOne i s with
    | .next t => runAll is t
    | .fault f => .fault f
    | .refused r => .refused r

end Sys2Proof.Machine
end

