-- ==== Sys2Proof/Safety.lean ====
section
/-! DEFINITION. What claims call a legal state, a reachable state and a successful run (R26, R271, R313). -/

namespace Sys2Proof.Machine

/-- The unit waits for a command (R301, R312). -/
def Idle (s : State) : Prop := s.status.busy = false ∧ s.status.err = false

/-- The commands of the transform family (R162). -/
def isTransform : Instr → Bool
  | .fft _ => true
  | .ifft _ => true
  | .cmul _ _ _ => false
  | .bitrev _ => true
  | .bfstg _ _ _ => true
  | .scale _ => true
  | .magph _ _ => false

/-- CMUL or MAGPH names both buffers, in whatever operand positions (R267). -/
def namesBoth : Instr → Bool
  | .fft _ => false
  | .ifft _ => false
  | .cmul d s1 s2 => d != s1 || s1 != s2
  | .bitrev _ => false
  | .bfstg _ _ _ => false
  | .scale _ => false
  | .magph d s1 => d != s1

/-- The buffers a command reads samples of (R22). -/
def sourcesOf : Instr → List Buf
  | .fft d => [d]
  | .ifft d => [d]
  | .cmul _ s1 s2 => [s1, s2]
  | .bitrev d => [d]
  | .bfstg d _ _ => [d]
  | .scale d => [d]
  | .magph _ s1 => [s1]

/-- The host may do this while a command runs without abandoning it: anything but a reset (R77, R302). -/
def keepsCommand (p : Params) : HostOp → Bool
  | .reset => false
  | .wr .ctrl v => !v.getLsbD 0
  | .memWrite addr _ v => !(v.getLsbD 0 && addr == windowBase p + 4 * regNumber .ctrl)
  | _ => true

/-- Operations of the host, one after the other. -/
def runHost : List HostOp → State → Host.Outcome State Fault Refusal
  | [], s => .next s
  | op :: ops, s =>
    match hostOp op s with
    | .next t => runHost ops t
    | .fault f => .fault f
    | .refused r => .refused r

/-- The accesses the model refuses, and how (R67, R73, R74, U23). -/
def BadAccess (p : Params) (op : HostOp) (r : Refusal) : Prop :=
  (∃ addr size, (op = .memRead addr size ∨ ∃ v, op = .memWrite addr size v) ∧
    ((r = .outsideWindow ∧ (addr < windowBase p ∨ windowBase p + windowBytes p ≤ addr)) ∨
     (r = .notAnAlignedWord ∧ windowBase p ≤ addr ∧ addr < windowBase p + windowBytes p ∧ (size ≠ 4 ∨ addr % 4 ≠ 0)))) ∨
  (∃ pl i, (op = .rs pl i ∨ ∃ v, op = .ws pl i v) ∧ r = .noSuchSample ∧ nmax p ≤ i)

/-- The flag invariants of R26. -/
structure FlagsOk (f : Status) : Prop where
  busyDone : ¬(f.busy = true ∧ f.done = true)
  busyErr  : ¬(f.busy = true ∧ f.err = true)
  doneErr  : ¬(f.done = true ∧ f.err = true)
  codeZero : f.errcode = 0#4 ↔ f.err = false
  codeLegal : f.errcode ≠ 3#4 ∧ f.errcode.toNat ≤ 6

/-- The invariant of the machine: every run from reset keeps it, and every step keeps it. -/
structure Inv (s : State) : Prop where
  /-- R26. -/
  flags : FlagsOk s.status
  /-- ERRINFO is 0 when ERR is 0 (R36). -/
  info : s.status.err = false → s.errinfo = 0#32
  /-- CMD holds a command word, or 0 (R35). -/
  word : s.cmd = 0#32 ∨ ∃ i, decodeWord s.cmd = .ok i
  /-- The command in flight has passed its validation, and the lengths it was validated against still stand (R37, R218). -/
  inFlight : s.status.busy = true → ∃ i, decodeWord s.cmd = .ok i ∧ validate i s = none
  /-- The memory is in its canonical form. -/
  sorted : Memory.wf s.mem
  /-- The memory holds bytes of the four sample planes only (R60, R64). -/
  inPlanes : ∀ c ∈ s.mem, planeBytes s.params ≤ c.1 ∧ c.1 < 5 * planeBytes s.params
  /-- A word is stored whole or is unspecified (R75): the bytes of a word are listed all or none. -/
  whole : ∀ c ∈ s.mem, ∀ k < 4, (byteAt s.mem (c.1 / 4 * 4 + k)).isSome = true

/-- What a run from reset can reach, whatever the configuration, the host's script and the schedule. -/
inductive Reachable : State → Prop where
  | start (p : Params) (sched : List Agent) (script : List HostOp) :
    Reachable { resetOf p with sched := sched, script := script }
  | next {s t : State} : Reachable s → step s = .next t → Reachable t

/-- The run has ended successfully (R313): the host has issued its last transaction, the engine has no step, and neither ERR nor
OVR is set. -/
def Succeeded (s : State) : Prop :=
  s.script = [] ∧ s.status.busy = false ∧ s.status.err = false ∧ s.status.ovr = false

/-- The named property of a configured arctangent that a claim about phases may assume (R203). -/
def Atan2IsDefault : Prop := ∀ y x : Word, Config.atan2 y x = atan2Rounded y x

/-- The two states hold the same unit: everything but the host's own fields, the schedule and the counter of free values. -/
structure SameUnit (s t : State) : Prop where
  params  : t.params = s.params
  ctrl    : t.ctrl = s.ctrl
  status  : t.status = s.status
  cmd     : t.cmd = s.cmd
  errinfo : t.errinfo = s.errinfo
  lena    : t.lena = s.lena
  lenb    : t.lenb = s.lenb
  mem     : t.mem = s.mem

/-- Two states agree on the sample words of a buffer below an index. -/
def SameBelow (s t : State) (b : Buf) (n : Nat) : Prop := ∀ i < n, elemAt s b i = elemAt t b i

end Sys2Proof.Machine
end

