-- ==== Sys2Proof/Certificates/Slice0/Obligations.lean ====
section
/-! DEFINITION. The statements about the machine, each from the numbered rules its docstring cites. -/

open Sys2Proof Sys2Proof.Machine

/-! Encoding -/

/-- R96, R100: decoding the command word of a well-formed instruction gives it back, every operand at every value. -/
def Obligations.DecodeOfEncode : Prop :=
  ∀ i : Instr, WellFormed i = true → decodeWord (encode i) = .ok i

/-- R96, R97, D9: a word that decodes is the one command word of the instruction it decodes to, and that one is well-formed. -/
def Obligations.EncodeOfDecode : Prop :=
  ∀ (w : Word) (i : Instr), decodeWord w = .ok i → encode i = w ∧ WellFormed i = true

/-- R95: the table of (mask, match) pairs, and no word matches two rows. -/
def Obligations.OpcodeRowsDisjoint : Prop :=
  opcodeRows = [(0xFFFFFFEF#32, 0x1#32), (0xFFFFFFEF#32, 0x2#32), (0xFFFFFF8F#32, 0x3#32), (0xFFFFFFEF#32, 0x4#32),
    (0xFFFFE06F#32, 0x5#32), (0xFFFFFFEF#32, 0x6#32), (0xFFFFFFCF#32, 0x7#32)] ∧
  ∀ w : Word, opcodeRows.Pairwise fun q r => ¬(w &&& q.1 = q.2 ∧ w &&& r.1 = r.2)

/-- R101: words of the spec's list of encodings, one of each command at least, decode to the commands it names. -/
def Obligations.SpecWordsDecode : Prop :=
  decodeWord 0x00000011#32 = .ok (.fft .B) ∧ decodeWord 0x00000002#32 = .ok (.ifft .A) ∧
  decodeWord 0x00000023#32 = .ok (.cmul .A .B .A) ∧ decodeWord 0x00000053#32 = .ok (.cmul .B .A .B) ∧
  decodeWord 0x00000014#32 = .ok (.bitrev .B) ∧ decodeWord 0x00000295#32 = .ok (.bfstg .B 2 .inverse) ∧
  decodeWord 0x00001815#32 = .ok (.bfstg .B 24 .forward) ∧ decodeWord 0x00000006#32 = .ok (.scale .A) ∧
  decodeWord 0x00000027#32 = .ok (.magph .A .B)

/-! Steps, issue, acceptance, completion -/

/-- R215, R218: the host's write of a command word to CMD in the idle state, and the engine's turn while BUSY, each run the decoded
command's meaning, on the state with the turn taken off the schedule and the write off the host's script; and a word placed by
`withFetchWord` is run by the very next step. -/
def Obligations.StepRunsDecodedCommand : Prop :=
  (∀ (s : State) (w : Word) (rest : List HostOp) (i : Instr), nextAgent s = .host → s.script = .wr .cmd w :: rest → Idle s →
    decodeWord w = .ok i → step s = exec i { s with sched := s.sched.tail, script := rest }) ∧
  (∀ (s : State) (i : Instr), nextAgent s = .engine → s.status.busy = true → decodeWord s.cmd = .ok i →
    step s = exec i { s with sched := s.sched.tail }) ∧
  (∀ (s : State) (w : Word) (i : Instr), decodeWord w = .ok i →
    step (s.withFetchWord 32 w.toNat) = exec i { s with status := { s.status with busy := false, err := false, errcode := 0#4 } })

/-- R215: what a write of `w` to CMD does, and that its validation reads only the word, the lengths and the configuration. -/
def Obligations.IssueOutcome : Prop :=
  ∀ (w : Word) (s : State),
    (s.status.busy = true ∨ s.status.err = true →
      hostOp (.wr .cmd w) s = .next { s with status := { s.status with ovr := true } }) ∧
    (Idle s → ∀ e, validateWord w s = some e → hostOp (.wr .cmd w) s = .next (errorEntry e w s)) ∧
    (Idle s → validateWord w s = none → hostOp (.wr .cmd w) s = .next (accept w s)) ∧
    (∀ t : State, t.params = s.params → t.lena = s.lena → t.lenb = s.lenb → validateWord w t = validateWord w s)

/-- R270, R260: the error entry: what it saves, with the codes of the errors, what it does not change, and the interrupt it raises. -/
def Obligations.ErrorEntryEffect : Prop :=
  (∀ (w : Word) (s : State) (e : ErrCode), Idle s → validateWord w s = some e →
    ∃ t, hostOp (.wr .cmd w) s = .next t ∧
      t = { s with
        status := { busy := false, done := false, err := true, ovr := s.status.ovr, errcode := errorCode e }
        errinfo := w } ∧
      irq t = s.ctrl.ieErr) ∧
  errorCode .nonPowerOfTwoLength = 1#4 ∧ errorCode .lengthMismatch = 2#4 ∧ errorCode .emptyInput = 3#4 ∧
  errorCode .illegalCommand = 4#4 ∧ errorCode .lengthTooLarge = 5#4 ∧ errorCode .stageOutOfRange = 6#4 ∧
  ∀ (w : Word) (s : State), validateWord w s ≠ some .emptyInput

/-- R217: acceptance, and that from then on the host's writes to CMD, LENA, LENB and sample memory are dropped and its sample
reads return an arbitrary value. -/
def Obligations.AcceptEffect : Prop :=
  ∀ (w : Word) (s : State), Idle s → validateWord w s = none →
    ∃ t, hostOp (.wr .cmd w) s = .next t ∧
      t = { s with cmd := w, status := { s.status with busy := true, done := false } } ∧
      (∀ v : Word, ∀ r : Reg, r = .cmd ∨ r = .lena ∨ r = .lenb →
        hostOp (.wr r v) t = .next { t with status := { t.status with ovr := true } }) ∧
      (∀ (pl : Plane) (k : Nat) (v : Word), k < nmax s.params →
        hostOp (.ws pl k v) t = .next { t with status := { t.status with ovr := true } } ∧
        hostOp (.rs pl k) t = .next { t with reads := Config.freeWord t.draws :: t.reads, draws := t.draws + 1 })

/-- R218: the engine's step is enabled exactly when BUSY is 1; it applies the buffer update of the command in CMD, clears BUSY, sets
DONE and changes nothing else, and `irq` rises if IE_DONE is 1. -/
def Obligations.CompletionEffect : Prop :=
  ∀ s : State, Inv s →
    (s.status.busy = true → ∃ i t, decodeWord s.cmd = .ok i ∧ engineTurn s = .next t ∧
      t = { s with mem := updateOf i s, status := { s.status with busy := false, done := true } } ∧
      (s.ctrl.ieDone = true → irq t = true)) ∧
    (s.status.busy = false → engineTurn s = .next s)

/-- R222: after a command issued in the idle state, and the engine's step if it was accepted, `wait` ends on a STATUS value with BUSY
clear that tells exactly one of success and failure; while BUSY it polls again. -/
def Obligations.WaitReturnsOutcome : Prop :=
  ∀ (s : State) (w : Word), Idle s →
    ∃ t u, hostOp (.wr .cmd w) s = .next t ∧ engineTurn t = .next u ∧
      (t.status.busy = true → hostOp .wait t = .next { t with reads := statusWord t.status :: t.reads, script := .wait :: t.script }) ∧
      (hostOp .wait u = .next { u with reads := statusWord u.status :: u.reads }) ∧
      (statusWord u.status).getLsbD 0 = false ∧
      ((validateWord w s = none ∧ (statusWord u.status).getLsbD 1 = true ∧ (statusWord u.status).getLsbD 2 = false) ∨
       (∃ e, validateWord w s = some e ∧ t.status.busy = false ∧ (statusWord u.status).getLsbD 1 = false ∧
        (statusWord u.status).getLsbD 2 = true ∧ (statusWord u.status).extractLsb' 8 4 = errorCode e ∧ u.mem = s.mem))

/-! Errors and the fault state -/

/-- R262: a transform command issued in the idle state raises NonPowerOfTwoLength exactly when `LEN[D]` is no power of two, whatever
the capacity. -/
def Obligations.NonPowerOfTwoError : Prop :=
  ∀ (i : Instr) (s : State), isTransform i = true → Idle s →
    ((∀ k, operandLen i s ≠ 2 ^ k) ↔ validate i s = some .nonPowerOfTwoLength) ∧
    ((∀ k, operandLen i s ≠ 2 ^ k) → exec i s = .next (errorEntry .nonPowerOfTwoLength (encode i) s))

/-- R263: once the check that the command's component mandates has passed, an operand length above `NMAX` raises LengthTooLarge; no
accepted command has one. -/
def Obligations.LengthTooLargeError : Prop :=
  ∀ (i : Instr) (s : State), Idle s →
    ((isTransform i = true → ∃ k, operandLen i s = 2 ^ k) → (namesBoth i = true → s.lena = s.lenb) →
      ((∃ d s1, i = .magph d s1) → s.params.hasMagph = true) → nmax s.params < operandLen i s →
      exec i s = .next (errorEntry .lengthTooLarge (encode i) s)) ∧
    (validate i s = none → operandLen i s ≤ nmax s.params)

/-- R264: BFSTG on a legal length `2^n` with a stage number of 0 or above `n` raises StageOutOfRange. -/
def Obligations.StageRangeError : Prop :=
  ∀ (d : Buf) (stg n : Nat) (inv : Dir) (s : State), Idle s → len s d = 2 ^ n → 2 ^ n ≤ nmax s.params → stg = 0 ∨ n < stg →
    exec (.bfstg d stg inv) s = .next (errorEntry .stageOutOfRange (encode (.bfstg d stg inv)) s)

/-- R265: a word that is no command of the unit raises IllegalCommand when it is written to CMD in the idle state. -/
def Obligations.IllegalCommandError : Prop :=
  ∀ (w : Word) (s : State), Idle s →
    ((∃ r, decodeWord w = .error r) ∨ (s.params.hasMagph = false ∧ ∃ d s1, decodeWord w = .ok (.magph d s1))) →
    hostOp (.wr .cmd w) s = .next (errorEntry .illegalCommand w s)

/-- R267: CMUL or MAGPH naming both buffers with unequal lengths raises LengthMismatch, whether or not a length is too large. -/
def Obligations.LengthMismatchError : Prop :=
  ∀ (i : Instr) (s : State), Idle s → namesBoth i = true → ((∃ d s1, i = .magph d s1) → s.params.hasMagph = true) →
    s.lena ≠ s.lenb → exec i s = .next (errorEntry .lengthMismatch (encode i) s)

/-- R205: without MAGPH every word of OPC 7 is illegal and CAP bit 8 reads 0; with it, CAP bit 8 reads 1 and MAGPH decodes to a
command that validation does not call illegal. -/
def Obligations.MagphPresence : Prop :=
  ∀ s : State,
    (s.params.hasMagph = false → (regValue .cap s).getLsbD 8 = false ∧
      ∀ w : Word, opcAt w = 7 → validateWord w s = some .illegalCommand) ∧
    (s.params.hasMagph = true → (regValue .cap s).getLsbD 8 = true ∧
      ∀ d s1 : Buf, validateWord (encode (.magph d s1)) s ≠ some .illegalCommand)

/-- R273: in the fault state ERRCODE and ERRINFO keep the first error until a reset, and a step taken while BUSY raises none. -/
def Obligations.FaultStateKeepsFirstError : Prop :=
  ∀ s t : State, FlagsOk s.status → step s = .next t →
    (s.status.err = true →
      (t.status.err = true ∧ t.status.errcode = s.status.errcode ∧ t.errinfo = s.errinfo) ∨
      (t.status = statusReset ∧ t.errinfo = 0#32)) ∧
    (s.status.busy = true → t.status.err = false)

/-- R272: the only ways out of the fault state are the soft reset, by a write to CTRL with bit 0 set or by the same write named by its
address, and the hard reset; either is taken from the head of the host's script. Each clears ERR, ERRCODE, ERRINFO and the lengths; the
soft reset preserves the sample memory. -/
def Obligations.FaultStateExits : Prop :=
  (∀ s t : State, FlagsOk s.status → s.status.err = true → step s = .next t → t.status.err = false →
    nextAgent s = .host ∧ ∃ op rest, s.script = op :: rest ∧
      (((∃ v : Word, v.getLsbD 0 = true ∧ (op = .wr .ctrl v ∨ op = .memWrite (windowBase s.params + 0x08) 4 v)) ∧
          t = softReset { s with sched := s.sched.tail, script := rest }) ∨
        (op = .reset ∧ t = hardReset { s with sched := s.sched.tail, script := rest }))) ∧
  (∀ (s : State) (v : Word), FlagsOk s.status → s.status.err = true → v.getLsbD 0 = true →
    ∃ t, hostOp (.wr .ctrl v) s = .next t ∧ hostOp (.memWrite (windowBase s.params + 0x08) 4 v) s = .next t ∧
      t.status = statusReset ∧ t.errinfo = 0#32 ∧ t.lena = 0#32 ∧ t.lenb = 0#32 ∧ t.mem = s.mem) ∧
  (∀ s : State, s.status.err = true →
    ∃ t, hostOp .reset s = .next t ∧ t.status = statusReset ∧ t.errinfo = 0#32 ∧ t.lena = 0#32 ∧ t.lenb = 0#32 ∧
      ∀ pl k, sampleAt t pl k = none)

/-! Reset -/

/-- R43: the values after a hard reset, for every configuration; that of `State.reset` is the model's choice (log 1). -/
def Obligations.ResetValues : Prop :=
  State.reset = resetOf { capacity := 0, hasMagph := true, atan2Default := true, windowIndex := 0 } ∧
  ∀ p : Params,
    [Reg.id, .cap, .ctrl, .status, .cmd, .errinfo, .lena, .lenb].map (fun r => regValue r (resetOf p)) =
      [0x53434601#32, BitVec.ofNat 32 (3 + p.capacity.val + if p.hasMagph then 2 ^ 8 else 0), 0#32, 0#32, 0#32, 0#32, 0#32, 0#32] ∧
    (∀ pl k, sampleAt (resetOf p) pl k = none) ∧ irq (resetOf p) = false

/-- R300: the hard reset, from any state. -/
def Obligations.HardResetEffect : Prop :=
  ∀ s : State, ∃ t, hostOp .reset s = .next t ∧ t.ctrl = ctrlReset ∧ t.status = statusReset ∧ t.cmd = 0#32 ∧ t.errinfo = 0#32 ∧
    t.lena = 0#32 ∧ t.lenb = 0#32 ∧ (∀ pl k, sampleAt t pl k = none) ∧ engineTurn t = .next t ∧ irq t = false ∧
    t.params = s.params

/-- R302: the soft reset: every bit of the word but bit 0 is ignored, the registers are cleared, and the sample memory is preserved
but for the destination operand of a command in flight. -/
def Obligations.SoftResetEffect : Prop :=
  ∀ (s : State) (v : Word), v.getLsbD 0 = true →
    ∃ t, hostOp (.wr .ctrl v) s = .next t ∧ t.ctrl = ctrlReset ∧ t.status = statusReset ∧ t.cmd = 0#32 ∧ t.errinfo = 0#32 ∧
      t.lena = 0#32 ∧ t.lenb = 0#32 ∧ engineTurn t = .next t ∧ t.params = s.params ∧
      (s.status.busy = false → t.mem = s.mem) ∧
      (s.status.busy = true → ∀ i, decodeWord s.cmd = .ok i → ∀ b k, k < nmax s.params →
        elemAt t b k = if b = destOf i ∧ k < operandLen i s then { re := none, im := none } else elemAt s b k)

/-- R301: after reset the unit is idle and does nothing by itself; a transform command raises NonPowerOfTwoLength, CMUL and MAGPH
complete without touching memory. -/
def Obligations.AfterResetBehaviour : Prop :=
  ∀ p : Params, Idle (resetOf p) ∧ (resetOf p).status.done = false ∧ (resetOf p).ctrl = { ieDone := false, ieErr := false } ∧
    (resetOf p).lena = 0#32 ∧ (resetOf p).lenb = 0#32 ∧ step (resetOf p) = .next (resetOf p) ∧
    (∀ i, isTransform i = true → exec i (resetOf p) = .next (errorEntry .nonPowerOfTwoLength (encode i) (resetOf p))) ∧
    (∀ i, WellFormed i = true → isTransform i = false → ((∃ d s1, i = .magph d s1) → p.hasMagph = true) →
      ∃ t, runOne i (resetOf p) = .next t ∧ t.status.done = true ∧ t.mem = [])

/-! Invariants -/

/-- The invariant holds after reset, whatever the configuration, the host's script and the schedule. -/
def Obligations.InvAtReset : Prop :=
  ∀ (p : Params) (sched : List Agent) (script : List HostOp), Inv { resetOf p with sched := sched, script := script }

/-- Every step keeps the invariant, and the configuration. -/
def Obligations.InvKeptByStep : Prop :=
  ∀ s t : State, Inv s → step s = .next t → Inv t ∧ t.params = s.params

/-- R26: the flag invariants hold in every reachable state. -/
def Obligations.FlagInvariants : Prop :=
  ∀ s : State, Reachable s →
    ¬(s.status.busy = true ∧ s.status.done = true) ∧ ¬(s.status.busy = true ∧ s.status.err = true) ∧
    ¬(s.status.done = true ∧ s.status.err = true) ∧ (s.status.errcode = 0#4 ↔ s.status.err = false) ∧
    s.status.errcode ≠ 3#4 ∧ s.status.errcode.toNat ≤ 6

/-- R218, R219: no error can occur in the engine's step: no step from a legal state faults. -/
def Obligations.NoFaultUnderInv : Prop :=
  ∀ (s : State) (f : Fault), Inv s → step s ≠ .fault f

/-- R67, R73, R74: a step is refused exactly on an access the spec gives no meaning. -/
def Obligations.RefusalsAreBadAccesses : Prop :=
  ∀ (s : State) (r : Refusal), step s = .refused r ↔
    nextAgent s = .host ∧ ∃ op rest, s.script = op :: rest ∧ BadAccess s.params op r

/-! The commands -/

/-- R163: BITREV in flight completes, and moves element `i` to index `rev_n(i)`, as a pattern, in both planes. -/
def Obligations.BitrevResult : Prop :=
  ∀ (d : Buf) (n : Nat) (s : State), s.status.busy = true → len s d = 2 ^ n → 2 ^ n ≤ nmax s.params →
    ∃ t, exec (.bitrev d) s = .next t ∧ t.status = { s.status with busy := false, done := true } ∧
      ∀ i < 2 ^ n, elemAt t d (bitReverse n i) = elemAt s d i ∧ elemAt t d i = elemAt s d (bitReverse n i)

/-- R165, R138: BFSTG in flight completes, and combines the pair of elements of every butterfly of the stage. -/
def Obligations.StageResult : Prop :=
  ∀ (d : Buf) (stg n : Nat) (inv : Dir) (s : State), s.status.busy = true → len s d = 2 ^ n → 2 ^ n ≤ nmax s.params →
    1 ≤ stg → stg ≤ n →
    ∃ t, exec (.bfstg d stg inv) s = .next t ∧ t.status = { s.status with busy := false, done := true } ∧
      ∀ b < 2 ^ (n - stg), ∀ j < 2 ^ (stg - 1),
        (elemAt t d (b * 2 ^ stg + j), elemAt t d (b * 2 ^ stg + j + 2 ^ (stg - 1))) =
          bfly (elemAt s d (b * 2 ^ stg + j)) (elemAt s d (b * 2 ^ stg + j + 2 ^ (stg - 1)))
            (twiddle (lognmax s.params) inv stg j)

/-- R167: SCALE in flight completes, and divides every component by the length. -/
def Obligations.ScaleResult : Prop :=
  ∀ (d : Buf) (n : Nat) (s : State), s.status.busy = true → len s d = 2 ^ n → 2 ^ n ≤ nmax s.params →
    ∃ t, exec (.scale d) s = .next t ∧ t.status = { s.status with busy := false, done := true } ∧
      ∀ i < 2 ^ n, elemAt t d i =
        { re := (elemAt s d i).re.map (fdiv · (natToF32 (2 ^ n))), im := (elemAt s d i).im.map (fdiv · (natToF32 (2 ^ n))) }

/-- R160, R168: FFT in flight completes, and its result is that of the spec's loop nest run in place: the bit-reversal loop, then
the stages in order, each butterfly by butterfly. -/
def Obligations.FftResult : Prop :=
  ∀ (d : Buf) (n : Nat) (s : State), s.status.busy = true → len s d = 2 ^ n → 2 ^ n ≤ nmax s.params →
    ∃ t, exec (.fft d) s = .next t ∧ t.status = { s.status with busy := false, done := true } ∧
      readBuf t d (2 ^ n) =
        (List.range n).foldl
          (fun xs k => (stagePairs (2 ^ n) (2 ^ k)).foldl
            (butterflyStep (twiddle (lognmax s.params) .forward (k + 1)) (2 ^ k)) xs)
          ((List.range (2 ^ n)).foldl (swapStep n) (readBuf s d (2 ^ n)))

/-- R161, R168: IFFT in flight completes: the same loop nest with the inverse twiddles, then the division by `N`. -/
def Obligations.IfftResult : Prop :=
  ∀ (d : Buf) (n : Nat) (s : State), s.status.busy = true → len s d = 2 ^ n → 2 ^ n ≤ nmax s.params →
    ∃ t, exec (.ifft d) s = .next t ∧ t.status = { s.status with busy := false, done := true } ∧
      readBuf t d (2 ^ n) =
        ((List.range n).foldl
          (fun xs k => (stagePairs (2 ^ n) (2 ^ k)).foldl
            (butterflyStep (twiddle (lognmax s.params) .inverse (k + 1)) (2 ^ k)) xs)
          ((List.range (2 ^ n)).foldl (swapStep n) (readBuf s d (2 ^ n)))).map fun x =>
            { re := x.re.map (fdiv · (natToF32 (2 ^ n))), im := x.im.map (fdiv · (natToF32 (2 ^ n))) }

/-- R190, R192, R193: CMUL in flight completes for every combination of operands and every length up to `NMAX`, 0 included, and
writes the products of the old elements. -/
def Obligations.CmulResult : Prop :=
  ∀ (d s1 s2 : Buf) (s : State), s.status.busy = true → (d ≠ s1 ∨ s1 ≠ s2 → s.lena = s.lenb) → len s s1 ≤ nmax s.params →
    ∃ t, exec (.cmul d s1 s2) s = .next t ∧ t.status = { s.status with busy := false, done := true } ∧
      ∀ k < len s s1, elemAt t d k =
        { re := lift2 fsub (lift2 fmul (elemAt s s1 k).re (elemAt s s2 k).re) (lift2 fmul (elemAt s s1 k).im (elemAt s s2 k).im),
          im := lift2 fadd (lift2 fmul (elemAt s s1 k).re (elemAt s s2 k).im) (lift2 fmul (elemAt s s1 k).im (elemAt s s2 k).re) }

/-- R200, R206: MAGPH in flight, on a unit that has it, completes, and replaces each element by its magnitude and its phase. -/
def Obligations.MagphResult : Prop :=
  ∀ (d s1 : Buf) (s : State), s.status.busy = true → s.params.hasMagph = true → (d ≠ s1 → s.lena = s.lenb) →
    len s s1 ≤ nmax s.params →
    ∃ t, exec (.magph d s1) s = .next t ∧ t.status = { s.status with busy := false, done := true } ∧
      ∀ k < len s s1, elemAt t d k =
        { re := (lift2 fadd (lift2 fmul (elemAt s s1 k).re (elemAt s s1 k).re)
            (lift2 fmul (elemAt s s1 k).im (elemAt s s1 k).im)).map fsqrt,
          im := lift2 (atan2F32 s.params) (elemAt s s1 k).im (elemAt s s1 k).re }

/-- R22, R171: the frame of all seven commands: which registers and flags each phase changes, and that a completed command changes no
byte outside the destination operand's words. -/
def Obligations.CommandFrame : Prop :=
  ∀ (i : Instr) (s t : State), exec i s = .next t →
    t.params = s.params ∧ t.ctrl = s.ctrl ∧ t.lena = s.lena ∧ t.lenb = s.lenb ∧ t.sched = s.sched ∧ t.script = s.script ∧
    t.reads = s.reads ∧ t.result = s.result ∧ t.draws = s.draws ∧
    (s.status.busy = true → t.cmd = s.cmd ∧ t.errinfo = s.errinfo ∧ t.status = { s.status with busy := false, done := true } ∧
      ∀ a, ¬(planeBase s.params (rePlane (destOf i)) ≤ a ∧ a < planeBase s.params (rePlane (destOf i)) + 4 * operandLen i s) →
        ¬(planeBase s.params (imPlane (destOf i)) ≤ a ∧ a < planeBase s.params (imPlane (destOf i)) + 4 * operandLen i s) →
        byteAt t.mem a = byteAt s.mem a) ∧
    (s.status.busy = false → ∀ a, byteAt t.mem a = byteAt s.mem a) ∧
    (s.status.busy = false → s.status.err = true → t.cmd = s.cmd ∧ t.errinfo = s.errinfo ∧
      t.status = { s.status with ovr := true }) ∧
    (Idle s → t.status.ovr = s.status.ovr ∧ t.status.done = false ∧
      ((t.cmd = encode i ∧ t.errinfo = s.errinfo ∧ t.status.busy = true ∧ t.status.err = false ∧
          t.status.errcode = s.status.errcode) ∨
       (t.cmd = s.cmd ∧ t.errinfo = encode i ∧ t.status.busy = false ∧ t.status.err = true)))

/-- R40: the result of a command is a function of the command, the lengths, the configuration and the source words below the operand
length. -/
def Obligations.ResultDependsOnOperandsOnly : Prop :=
  ∀ (i : Instr) (s s' : State), s.status.busy = true → s'.status.busy = true → validate i s = none →
    s'.params = s.params → s'.lena = s.lena → s'.lenb = s.lenb →
    (∀ b ∈ sourcesOf i, SameBelow s s' b (operandLen i s)) →
    ∃ t t', exec i s = .next t ∧ exec i s' = .next t' ∧ SameBelow t t' (destOf i) (operandLen i s)

/-! Order and composition -/

/-- R138: the index pairs of a stage's butterflies cover every index below the length exactly once, and there are `N/2` of them. -/
def Obligations.PairsPartitionIndices : Prop :=
  ∀ n s : Nat, 1 ≤ s → s ≤ n →
    ((stagePairs (2 ^ n) (2 ^ (s - 1))).flatMap (pairIndices (2 ^ (s - 1)))).Perm (List.range (2 ^ n)) ∧
    (stagePairs (2 ^ n) (2 ^ (s - 1))).length = 2 ^ n / 2

/-- R133, R166: the butterflies of a stage, run in place in any order, give the stage's one result. -/
def Obligations.StageOrderFree : Prop :=
  ∀ (tw : Nat → Cx) (n s : Nat) (xs : List Cx) (ps : List (Nat × Nat)), 1 ≤ s → s ≤ n → xs.length = 2 ^ n →
    ps.Perm (stagePairs (2 ^ n) (2 ^ (s - 1))) →
    ps.foldl (butterflyStep tw (2 ^ (s - 1))) xs = stageSeq tw (2 ^ (s - 1)) xs

/-- R139, R166: the swaps of the bit-reversal loop, in any order, realise `new[i] = old[rev_n(i)]`. -/
def Obligations.SwapOrderFree : Prop :=
  ∀ (n : Nat) (xs : List Cx) (order : List Nat), xs.length = 2 ^ n → order.Perm (List.range (2 ^ n)) →
    order.foldl (swapStep n) xs = (List.range (2 ^ n)).map fun i => elem xs (bitReverse n i)

/-- R169: FFT and IFFT leave the buffer as the sequence of their parts does, bit for bit, each command awaited. -/
def Obligations.CompositionLaw : Prop :=
  ∀ (d : Buf) (n : Nat) (s : State), Inv s → Idle s → len s d = 2 ^ n → 2 ^ n ≤ nmax s.params →
    (∃ t u, runAll [.fft d] s = .next t ∧
      runAll ([.bitrev d] ++ (List.range n).map fun k => .bfstg d (k + 1) .forward) s = .next u ∧ t.mem = u.mem) ∧
    (∃ t u, runAll [.ifft d] s = .next t ∧
      runAll ([.bitrev d] ++ ((List.range n).map fun k => .bfstg d (k + 1) .inverse) ++ [.scale d]) s = .next u ∧ t.mem = u.mem)

/-- R77, R310: nothing the host does short of a reset between acceptance and completion changes what the command computes. -/
def Obligations.OwnershipWhileBusy : Prop :=
  ∀ (ops : List HostOp) (s t : State), s.status.busy = true → (∀ op ∈ ops, keepsCommand s.params op = true) →
    runHost ops s = .next t →
    t.status.busy = true ∧ t.cmd = s.cmd ∧ t.lena = s.lena ∧ t.lenb = s.lenb ∧ t.mem = s.mem ∧ t.params = s.params ∧
    (∀ i, decodeWord s.cmd = .ok i → validate i s = none →
      ∃ u v, engineTurn s = .next u ∧ engineTurn t = .next v ∧ v.mem = u.mem ∧ v.status.busy = false ∧ v.status.done = true)

/-! The host's transactions -/

/-- R70, R71: a register write, register by register: ID, CAP and ERRINFO ignore it; CTRL and STATUS take it in every state; CMD issues
the word; LENA and LENB take any value in the idle state. While BUSY or in the fault state a write to CMD, LENA, LENB or a sample word
is dropped and sets OVR. -/
def Obligations.DroppedWrites : Prop :=
  ∀ (s : State) (v : Word),
    (s.status.busy = true ∨ s.status.err = true →
      (∀ r : Reg, r = .cmd ∨ r = .lena ∨ r = .lenb →
        hostOp (.wr r v) s = .next { s with status := { s.status with ovr := true } }) ∧
      (∀ (pl : Plane) (k : Nat), k < nmax s.params →
        hostOp (.ws pl k v) s = .next { s with status := { s.status with ovr := true } })) ∧
    (Idle s → hostOp (.wr .lena v) s = .next { s with lena := v } ∧ hostOp (.wr .lenb v) s = .next { s with lenb := v }) ∧
    hostOp (.wr .cmd v) s = issueCommand v s ∧
    (∀ r : Reg, r = .id ∨ r = .cap ∨ r = .errinfo → hostOp (.wr r v) s = .next s) ∧
    hostOp (.wr .status v) s =
      .next { s with status := { s.status with done := s.status.done && !v.getLsbD 1, ovr := s.status.ovr && !v.getLsbD 3 } } ∧
    (v.getLsbD 0 = false →
      hostOp (.wr .ctrl v) s = .next { s with ctrl := { ieDone := v.getLsbD 1, ieErr := v.getLsbD 2 } }) ∧
    (v.getLsbD 0 = true → hostOp (.wr .ctrl v) s = .next (softReset s))

/-- R73, R68: a sample write in the idle state stores the pattern in its word alone, little-endian, whatever the lengths; otherwise it
is dropped. That the sample memory is kept as the bytes of the window (R64) is the model's choice (log 11). -/
def Obligations.SampleWriteEffect : Prop :=
  ∀ (s : State) (pl : Plane) (k : Nat) (v : Word), k < nmax s.params →
    (Idle s → ∃ t, hostOp (.ws pl k v) s = .next t ∧ t = { s with mem := t.mem } ∧ sampleAt t pl k = some v ∧
      (∀ (q : Plane) (j : Nat), j < nmax s.params → q ≠ pl ∨ j ≠ k → sampleAt t q j = sampleAt s q j) ∧
      (∀ j < 4, byteAt t.mem (sampleAddr s.params pl k + j) = some (v.extractLsb' (8 * j) 8)) ∧
      (∀ a, a < sampleAddr s.params pl k ∨ sampleAddr s.params pl k + 4 ≤ a → byteAt t.mem a = byteAt s.mem a)) ∧
    (¬Idle s → hostOp (.ws pl k v) s = .next { s with status := { s.status with ovr := true } })

/-- R72, R74: a sample read returns the stored pattern when BUSY is 0 and the word is specified, else an arbitrary value, and changes
nothing of the unit. -/
def Obligations.SampleReadEffect : Prop :=
  ∀ (s : State) (pl : Plane) (k : Nat), k < nmax s.params →
    (∀ v, s.status.busy = false → sampleAt s pl k = some v →
      hostOp (.rs pl k) s = .next { s with reads := v :: s.reads }) ∧
    (s.status.busy = true ∨ sampleAt s pl k = none →
      hostOp (.rs pl k) s = .next { s with reads := Config.freeWord s.draws :: s.reads, draws := s.draws + 1 })

/-- R28, R60, R64, R66: the numbers of the registers and of the planes, the size of a plane, and that a bus access at a register's or
a sample word's place in the window is the transaction on it. -/
def Obligations.BusNamesTransactions : Prop :=
  [Reg.id, .cap, .ctrl, .status, .cmd, .errinfo, .lena, .lenb].map regNumber = [0, 1, 2, 3, 4, 5, 6, 7] ∧
  [Plane.aRe, .aIm, .bRe, .bIm].map planeNumber = [0, 1, 2, 3] ∧
  ∀ (s : State) (v : Word),
    planeBytes s.params = 2 ^ (3 + s.params.capacity.val + 2) ∧ nmax s.params = 2 ^ (3 + s.params.capacity.val) ∧
    (∀ r : Reg, hostOp (.memRead (windowBase s.params + 4 * regNumber r) 4) s = hostOp (.rd r) s ∧
      hostOp (.memWrite (windowBase s.params + 4 * regNumber r) 4 v) s = hostOp (.wr r v) s) ∧
    (∀ (pl : Plane) (k : Nat), k < nmax s.params →
      hostOp (.memRead (windowBase s.params + ((1 + planeNumber pl) * planeBytes s.params + 4 * k)) 4) s = hostOp (.rs pl k) s ∧
      hostOp (.memWrite (windowBase s.params + ((1 + planeNumber pl) * planeBytes s.params + 4 * k)) 4 v) s =
        hostOp (.ws pl k v) s)

/-- R65: the reserved offsets of the window read 0 and ignore writes, without any side effect. -/
def Obligations.ReservedOffsets : Prop :=
  ∀ (s : State) (off : Nat) (v : Word), off % 4 = 0 →
    (0x20 ≤ off ∧ off < planeBytes s.params) ∨ (5 * planeBytes s.params ≤ off ∧ off < 8 * planeBytes s.params) →
    hostOp (.memRead (windowBase s.params + off) 4) s = .next { s with reads := 0#32 :: s.reads } ∧
    hostOp (.memWrite (windowBase s.params + off) 4 v) s = .next s

/-- R69, R31 to R38: a register read returns the register's value and changes nothing else; what every register but CTRL reads as, bit
by bit for CAP and STATUS; and what a write to STATUS does (R34). CTRL has a statement of its own. -/
def Obligations.StatusRegister : Prop :=
  ∀ (s : State) (v : Word),
    (∀ r : Reg, hostOp (.rd r) s = .next { s with reads := regValue r s :: s.reads }) ∧
    regValue .id s = 0x53434601#32 ∧
    ((regValue .cap s).extractLsb' 0 5).toNat = 3 + s.params.capacity.val ∧
    (regValue .cap s).getLsbD 8 = s.params.hasMagph ∧ regValue .cap s &&& 0xFFFFFEE0#32 = 0#32 ∧
    regValue .cmd s = s.cmd ∧ regValue .errinfo s = s.errinfo ∧ regValue .lena s = s.lena ∧ regValue .lenb s = s.lenb ∧
    (regValue .status s).getLsbD 0 = s.status.busy ∧ (regValue .status s).getLsbD 1 = s.status.done ∧
    (regValue .status s).getLsbD 2 = s.status.err ∧ (regValue .status s).getLsbD 3 = s.status.ovr ∧
    (regValue .status s).extractLsb' 8 4 = s.status.errcode ∧ regValue .status s &&& 0xFFFFF0F0#32 = 0#32 ∧
    hostOp (.wr .status v) s =
      .next { s with status := { s.status with done := s.status.done && !v.getLsbD 1, ovr := s.status.ovr && !v.getLsbD 3 } }

/-- R33: what each bit of CTRL reads as, and what a write to it does, in every state. -/
def Obligations.CtrlRegister : Prop :=
  ∀ (s : State) (v : Word),
    (regValue .ctrl s).getLsbD 1 = s.ctrl.ieDone ∧ (regValue .ctrl s).getLsbD 2 = s.ctrl.ieErr ∧
    regValue .ctrl s &&& 0xFFFFFFF9#32 = 0#32 ∧
    (v.getLsbD 0 = true → hostOp (.wr .ctrl v) s = .next (softReset s)) ∧
    (v.getLsbD 0 = false → ∃ t, hostOp (.wr .ctrl v) s = .next t ∧
      t = { s with ctrl := { ieDone := v.getLsbD 1, ieErr := v.getLsbD 2 } })

/-- R275: the interrupt output, of which BUSY and OVR are no cause; the cause *done* goes by a write of 1 to STATUS bit 1, by the
acceptance of a command or by a reset, the cause *error* by a reset alone, and clearing its enable masks either. -/
def Obligations.InterruptLevel : Prop :=
  ∀ (s : State) (v : Word),
    (irq s = true ↔ (s.status.done = true ∧ s.ctrl.ieDone = true) ∨ (s.status.err = true ∧ s.ctrl.ieErr = true)) ∧
    (∀ busy ovr : Bool, irq { s with status := { s.status with busy := busy, ovr := ovr } } = irq s) ∧
    (∃ t, hostOp (.wr .status v) s = .next t ∧ t.status.err = s.status.err ∧ t.status.done = (s.status.done && !v.getLsbD 1) ∧
      (v.getLsbD 1 = true → irq t = (s.status.err && s.ctrl.ieErr))) ∧
    (Idle s → validateWord v s = none → ∃ t, hostOp (.wr .cmd v) s = .next t ∧ irq t = false) ∧
    (v.getLsbD 0 = false → ∃ t, hostOp (.wr .ctrl v) s = .next t ∧
      irq t = ((s.status.done && v.getLsbD 1) || (s.status.err && v.getLsbD 2))) ∧
    (v.getLsbD 0 = true → ∃ t, hostOp (.wr .ctrl v) s = .next t ∧ irq t = false) ∧
    (∃ t, hostOp .reset s = .next t ∧ irq t = false)

/-! The driver -/

/-- R237: `nextpow2(x)` is the least power of two that is at least `x`; the spec's table of it. -/
def Obligations.NextPow2Least : Prop :=
  (∀ x : Nat, 1 ≤ x →
    (∃ k, nextPow2 x = 2 ^ k) ∧ x ≤ nextPow2 x ∧ (∀ k, x ≤ 2 ^ k → nextPow2 x ≤ 2 ^ k) ∧
    ((∃ k, x = 2 ^ k) → nextPow2 x = x)) ∧
  [2, 3, 4, 5, 6, 7, 8, 9, 16, 17, 1000, 1024, 1025].map nextPow2 = [2, 4, 4, 8, 8, 8, 8, 16, 16, 32, 1024, 1024, 2048]

/-- R238 to R240, R242, R244: CONVOLVE's input checks come before any transaction and leave the unit untouched; inputs that pass start
the transactions of the spec's steps 4 to 13, in its order; what the two aborts and the return of the output do. That the driver is a
list of operations before the host's script, and that an abort gives up the operations up to the call's last, is the model's choice
(log 7). -/
def Obligations.ConvolveEntry : Prop :=
  (∀ (s : State) (a b : List Word) (n : Nat), n = nextPow2 (a.length + b.length) →
    (a = [] ∨ b = [] → hostOp (.convolve a b) s = .next { s with result := some (.error 3#4) }) ∧
    (a ≠ [] → b ≠ [] → nmax s.params < n → hostOp (.convolve a b) s = .next { s with result := some (.error 5#4) }) ∧
    (a ≠ [] → b ≠ [] → n ≤ nmax s.params → hostOp (.convolve a b) s = .next { s with script :=
      [.wr .lena (BitVec.ofNat 32 n), .wr .lenb (BitVec.ofNat 32 n)] ++
      ((List.range n).flatMap fun i => [.ws .aRe i (a.getD i 0#32), .ws .aIm i 0#32]) ++
      ((List.range n).flatMap fun i => [.ws .bRe i (b.getD i 0#32), .ws .bIm i 0#32]) ++
      [.wr .cmd 0x00000001#32, .wait, .abortIfErr, .wr .cmd 0x00000011#32, .wait, .abortIfErr,
        .rd .lena, .rd .lenb, .abortIfLensDiffer,
        .wr .cmd 0x00000043#32, .wait, .abortIfErr, .wr .cmd 0x00000002#32, .wait, .abortIfErr] ++
      ((List.range n).map fun i => .rs .aRe i) ++ [.returnOutput n] ++ s.script })) ∧
  (∀ (s : State) (v : Word) (vs : List Word), s.reads = v :: vs →
    (v.getLsbD 2 = false → hostOp .abortIfErr s = .next s) ∧
    (v.getLsbD 2 = true → hostOp .abortIfErr s =
      .next { s with script := .wr .ctrl 0x1#32 :: dropCall s.script, result := some (.error (v.extractLsb' 8 4)) })) ∧
  (∀ (s : State) (lb la : Word) (vs : List Word), s.reads = lb :: la :: vs →
    (la = lb → hostOp .abortIfLensDiffer s = .next s) ∧
    (la ≠ lb → hostOp .abortIfLensDiffer s = .next { s with script := dropCall s.script, result := some (.error 2#4) })) ∧
  (∀ (left rest : List HostOp) (n : Nat), (∀ op ∈ left, ∀ m, op ≠ .returnOutput m) →
    dropCall (left ++ .returnOutput n :: rest) = rest ∧ dropCall left = []) ∧
  (∀ (s : State) (n : Nat), hostOp (.returnOutput n) s = .next { s with result := some (.output (s.reads.take n).reverse) })

/-- R244: with both lengths the same power of two up to `NMAX`, none of the driver's four commands is rejected. -/
def Obligations.ConvolveCommandsAccepted : Prop :=
  ∀ (s : State) (n : Nat), s.lena = BitVec.ofNat 32 (2 ^ n) → s.lenb = BitVec.ofNat 32 (2 ^ n) → 2 ^ n ≤ nmax s.params →
    ∀ w ∈ [0x00000001#32, 0x00000011#32, 0x00000043#32, 0x00000002#32], validateWord w s = none

/-! Arithmetic, the ROM and bit reversal -/

/-- R123: an operation with a NaN operand, and every invalid operation, gives the canonical quiet NaN. -/
def Obligations.NanCanonical : Prop :=
  ∀ a b : Word,
    (isNaN a = true ∨ isNaN b = true →
      fadd a b = 0x7FC00000#32 ∧ fsub a b = 0x7FC00000#32 ∧ fmul a b = 0x7FC00000#32 ∧ fdiv a b = 0x7FC00000#32) ∧
    (isNaN a = true → fneg a = 0x7FC00000#32 ∧ fsqrt a = 0x7FC00000#32) ∧
    (isInf a = true → isInf b = true →
      fdiv a b = 0x7FC00000#32 ∧ (signBit a ≠ signBit b → fadd a b = 0x7FC00000#32) ∧
      (signBit a = signBit b → fsub a b = 0x7FC00000#32)) ∧
    (isZero a = true → isInf b = true → fmul a b = 0x7FC00000#32 ∧ fmul b a = 0x7FC00000#32) ∧
    (isZero a = true → isZero b = true → fdiv a b = 0x7FC00000#32) ∧
    (signBit a = true → isZero a = false → fsqrt a = 0x7FC00000#32)

/-- R131: the complex multiplier is commutative bit for bit. -/
def Obligations.CmulCommutes : Prop :=
  ∀ x y : Cx, cmul x y = cmul y x

/-- R121, R122: rounding delivers the binary32 magnitude nearest to the exact value, the even one of two equally near, subnormals
included, and infinity exactly from half a unit above the largest finite one. -/
def Obligations.RoundsToNearestEven : Prop :=
  ∀ num den : Nat, 0 < den →
    roundBody num den ≤ 0x7F800000 ∧
    (roundBody num den = 0x7F800000 ↔ (2 ^ 25 - 1) * 2 ^ 252 * den ≤ num) ∧
    (roundBody num den < 0x7F800000 → ∀ c < 0x7F800000,
      ((num : Int) - magnitude (BitVec.ofNat 32 (roundBody num den)) * den).natAbs ≤
        ((num : Int) - magnitude (BitVec.ofNat 32 c) * den).natAbs ∧
      (((num : Int) - magnitude (BitVec.ofNat 32 (roundBody num den)) * den).natAbs =
          ((num : Int) - magnitude (BitVec.ofNat 32 c) * den).natAbs →
        c = roundBody num den ∨ roundBody num den % 2 = 0))

/-- R129: the length converts exactly, and dividing by it is multiplying by its exact reciprocal. -/
def Obligations.DivideByPowerOfTwo : Prop :=
  ∀ (a : Word) (n : Nat), n ≤ 24 →
    natToF32 (2 ^ n) = BitVec.ofNat 32 ((127 + n) * 2 ^ 23) ∧
    fdiv a (natToF32 (2 ^ n)) = fmul a (BitVec.ofNat 32 ((127 - n) * 2 ^ 23))

/-- R135, R136: a twiddle factor does not depend on the unit's capacity, and no ROM address is out of range. -/
def Obligations.TwiddleIndependentOfCapacity : Prop :=
  ∀ l l' s j : Nat, 3 ≤ l → 3 ≤ l' → 1 ≤ s → s ≤ l → s ≤ l' → j < 2 ^ (s - 1) →
    twiddleForward l s j = twiddleForward l' s j ∧ twiddleInverse l s j = twiddleInverse l' s j ∧
    romAddress l s j < 2 ^ l / 2

/-- R134, R142: for every capacity the exact entries 1 and -i of the ROM, and on a unit of capacity 32 or more the spec's table of the
twiddle factors of block size 32. -/
def Obligations.RomEntries : Prop :=
  (∀ l, 3 ≤ l → romEntry l 0 = (0x3F800000#32, 0x00000000#32) ∧ romEntry l (2 ^ l / 4) = (0x00000000#32, 0xBF800000#32)) ∧
  (∀ l, 5 ≤ l → (List.range 16).map (twiddleForward l 5) =
    [(0x3F800000#32, 0x00000000#32), (0x3F7B14BE#32, 0xBE47C5C2#32), (0x3F6C835E#32, 0xBEC3EF15#32), (0x3F54DB31#32, 0xBF0E39DA#32),
     (0x3F3504F3#32, 0xBF3504F3#32), (0x3F0E39DA#32, 0xBF54DB31#32), (0x3EC3EF15#32, 0xBF6C835E#32), (0x3E47C5C2#32, 0xBF7B14BE#32),
     (0x00000000#32, 0xBF800000#32), (0xBE47C5C2#32, 0xBF7B14BE#32), (0xBEC3EF15#32, 0xBF6C835E#32), (0xBF0E39DA#32, 0xBF54DB31#32),
     (0xBF3504F3#32, 0xBF3504F3#32), (0xBF54DB31#32, 0xBF0E39DA#32), (0xBF6C835E#32, 0xBEC3EF15#32), (0xBF7B14BE#32, 0xBE47C5C2#32)])

/-- R137: bit `b` of `rev_n(i)` is bit `n-1-b` of `i`, and `rev_n` is an involution of `[0, 2^n)`. -/
def Obligations.BitReverseInvolution : Prop :=
  ∀ n i : Nat, i < 2 ^ n →
    bitReverse n i < 2 ^ n ∧ bitReverse n (bitReverse n i) = i ∧
    ∀ b < n, (bitReverse n i).testBit b = i.testBit (n - 1 - b)

/-- R204: the special cases of the default arctangent. -/
def Obligations.Atan2SpecialCases : Prop :=
  ∀ y x : Word,
    (isNaN y = true ∨ isNaN x = true → atan2Rounded y x = 0x7FC00000#32) ∧
    (isNaN y = false → isNaN x = false →
      (isZero y = true → signBit x = false → atan2Rounded y x = packSign (signBit y) 0) ∧
      (isZero y = true → signBit x = true → atan2Rounded y x = packSign (signBit y) 0x40490FDB) ∧
      (isZero y = false → isInf y = false → isZero x = true → atan2Rounded y x = packSign (signBit y) 0x3FC90FDB) ∧
      (isZero y = false → isInf y = false → isInf x = true → signBit x = false → atan2Rounded y x = packSign (signBit y) 0) ∧
      (isZero y = false → isInf y = false → isInf x = true → signBit x = true →
        atan2Rounded y x = packSign (signBit y) 0x40490FDB) ∧
      (isInf y = true → isInf x = false → atan2Rounded y x = packSign (signBit y) 0x3FC90FDB) ∧
      (isInf y = true → isInf x = true → signBit x = false → atan2Rounded y x = packSign (signBit y) 0x3F490FDB) ∧
      (isInf y = true → isInf x = true → signBit x = true → atan2Rounded y x = packSign (signBit y) 0x4016CBE4))
end

