-- ==== Sys2Proof/Laws/State.lean ====
section
/-! SUPPORT. One lemma per field per named update of the state, each true by unfolding, so that no later proof unfolds a record
update. -/

namespace Sys2Proof.Machine

/-! `dropWrite` -/

@[simp] theorem dropWrite_params (s : State) : (dropWrite s).params = s.params := rfl
@[simp] theorem dropWrite_ctrl (s : State) : (dropWrite s).ctrl = s.ctrl := rfl
@[simp] theorem dropWrite_status (s : State) : (dropWrite s).status = overrunFlags s.status := rfl
@[simp] theorem dropWrite_cmd (s : State) : (dropWrite s).cmd = s.cmd := rfl
@[simp] theorem dropWrite_errinfo (s : State) : (dropWrite s).errinfo = s.errinfo := rfl
@[simp] theorem dropWrite_lena (s : State) : (dropWrite s).lena = s.lena := rfl
@[simp] theorem dropWrite_lenb (s : State) : (dropWrite s).lenb = s.lenb := rfl
@[simp] theorem dropWrite_mem (s : State) : (dropWrite s).mem = s.mem := rfl
@[simp] theorem dropWrite_sched (s : State) : (dropWrite s).sched = s.sched := rfl
@[simp] theorem dropWrite_script (s : State) : (dropWrite s).script = s.script := rfl
@[simp] theorem dropWrite_reads (s : State) : (dropWrite s).reads = s.reads := rfl
@[simp] theorem dropWrite_result (s : State) : (dropWrite s).result = s.result := rfl
@[simp] theorem dropWrite_draws (s : State) : (dropWrite s).draws = s.draws := rfl

/-! `errorEntry` -/

@[simp] theorem errorEntry_params (e : ErrCode) (w : Word) (s : State) : (errorEntry e w s).params = s.params := rfl
@[simp] theorem errorEntry_ctrl (e : ErrCode) (w : Word) (s : State) : (errorEntry e w s).ctrl = s.ctrl := rfl
@[simp] theorem errorEntry_status (e : ErrCode) (w : Word) (s : State) : (errorEntry e w s).status = errorFlags s.status e := rfl
@[simp] theorem errorEntry_cmd (e : ErrCode) (w : Word) (s : State) : (errorEntry e w s).cmd = s.cmd := rfl
@[simp] theorem errorEntry_errinfo (e : ErrCode) (w : Word) (s : State) : (errorEntry e w s).errinfo = w := rfl
@[simp] theorem errorEntry_lena (e : ErrCode) (w : Word) (s : State) : (errorEntry e w s).lena = s.lena := rfl
@[simp] theorem errorEntry_lenb (e : ErrCode) (w : Word) (s : State) : (errorEntry e w s).lenb = s.lenb := rfl
@[simp] theorem errorEntry_mem (e : ErrCode) (w : Word) (s : State) : (errorEntry e w s).mem = s.mem := rfl
@[simp] theorem errorEntry_sched (e : ErrCode) (w : Word) (s : State) : (errorEntry e w s).sched = s.sched := rfl
@[simp] theorem errorEntry_script (e : ErrCode) (w : Word) (s : State) : (errorEntry e w s).script = s.script := rfl
@[simp] theorem errorEntry_reads (e : ErrCode) (w : Word) (s : State) : (errorEntry e w s).reads = s.reads := rfl
@[simp] theorem errorEntry_result (e : ErrCode) (w : Word) (s : State) : (errorEntry e w s).result = s.result := rfl
@[simp] theorem errorEntry_draws (e : ErrCode) (w : Word) (s : State) : (errorEntry e w s).draws = s.draws := rfl

/-! `accept` -/

@[simp] theorem accept_params (w : Word) (s : State) : (accept w s).params = s.params := rfl
@[simp] theorem accept_ctrl (w : Word) (s : State) : (accept w s).ctrl = s.ctrl := rfl
@[simp] theorem accept_status (w : Word) (s : State) : (accept w s).status = acceptFlags s.status := rfl
@[simp] theorem accept_cmd (w : Word) (s : State) : (accept w s).cmd = w := rfl
@[simp] theorem accept_errinfo (w : Word) (s : State) : (accept w s).errinfo = s.errinfo := rfl
@[simp] theorem accept_lena (w : Word) (s : State) : (accept w s).lena = s.lena := rfl
@[simp] theorem accept_lenb (w : Word) (s : State) : (accept w s).lenb = s.lenb := rfl
@[simp] theorem accept_mem (w : Word) (s : State) : (accept w s).mem = s.mem := rfl
@[simp] theorem accept_sched (w : Word) (s : State) : (accept w s).sched = s.sched := rfl
@[simp] theorem accept_script (w : Word) (s : State) : (accept w s).script = s.script := rfl
@[simp] theorem accept_reads (w : Word) (s : State) : (accept w s).reads = s.reads := rfl
@[simp] theorem accept_result (w : Word) (s : State) : (accept w s).result = s.result := rfl
@[simp] theorem accept_draws (w : Word) (s : State) : (accept w s).draws = s.draws := rfl

/-! `complete` -/

@[simp] theorem complete_params (m : Memory) (s : State) : (complete m s).params = s.params := rfl
@[simp] theorem complete_ctrl (m : Memory) (s : State) : (complete m s).ctrl = s.ctrl := rfl
@[simp] theorem complete_status (m : Memory) (s : State) : (complete m s).status = completeFlags s.status := rfl
@[simp] theorem complete_cmd (m : Memory) (s : State) : (complete m s).cmd = s.cmd := rfl
@[simp] theorem complete_errinfo (m : Memory) (s : State) : (complete m s).errinfo = s.errinfo := rfl
@[simp] theorem complete_lena (m : Memory) (s : State) : (complete m s).lena = s.lena := rfl
@[simp] theorem complete_lenb (m : Memory) (s : State) : (complete m s).lenb = s.lenb := rfl
@[simp] theorem complete_mem (m : Memory) (s : State) : (complete m s).mem = m := rfl
@[simp] theorem complete_sched (m : Memory) (s : State) : (complete m s).sched = s.sched := rfl
@[simp] theorem complete_script (m : Memory) (s : State) : (complete m s).script = s.script := rfl
@[simp] theorem complete_reads (m : Memory) (s : State) : (complete m s).reads = s.reads := rfl
@[simp] theorem complete_result (m : Memory) (s : State) : (complete m s).result = s.result := rfl
@[simp] theorem complete_draws (m : Memory) (s : State) : (complete m s).draws = s.draws := rfl

/-! `clearRegisters` -/

@[simp] theorem clearRegisters_params (s : State) : (clearRegisters s).params = s.params := rfl
@[simp] theorem clearRegisters_ctrl (s : State) : (clearRegisters s).ctrl = ctrlReset := rfl
@[simp] theorem clearRegisters_status (s : State) : (clearRegisters s).status = statusReset := rfl
@[simp] theorem clearRegisters_cmd (s : State) : (clearRegisters s).cmd = 0#32 := rfl
@[simp] theorem clearRegisters_errinfo (s : State) : (clearRegisters s).errinfo = 0#32 := rfl
@[simp] theorem clearRegisters_lena (s : State) : (clearRegisters s).lena = 0#32 := rfl
@[simp] theorem clearRegisters_lenb (s : State) : (clearRegisters s).lenb = 0#32 := rfl
@[simp] theorem clearRegisters_mem (s : State) : (clearRegisters s).mem = s.mem := rfl
@[simp] theorem clearRegisters_sched (s : State) : (clearRegisters s).sched = s.sched := rfl
@[simp] theorem clearRegisters_script (s : State) : (clearRegisters s).script = s.script := rfl
@[simp] theorem clearRegisters_reads (s : State) : (clearRegisters s).reads = s.reads := rfl
@[simp] theorem clearRegisters_result (s : State) : (clearRegisters s).result = s.result := rfl
@[simp] theorem clearRegisters_draws (s : State) : (clearRegisters s).draws = s.draws := rfl

/-! `softReset` -/

@[simp] theorem softReset_params (s : State) : (softReset s).params = s.params := rfl
@[simp] theorem softReset_ctrl (s : State) : (softReset s).ctrl = ctrlReset := rfl
@[simp] theorem softReset_status (s : State) : (softReset s).status = statusReset := rfl
@[simp] theorem softReset_cmd (s : State) : (softReset s).cmd = 0#32 := rfl
@[simp] theorem softReset_errinfo (s : State) : (softReset s).errinfo = 0#32 := rfl
@[simp] theorem softReset_lena (s : State) : (softReset s).lena = 0#32 := rfl
@[simp] theorem softReset_lenb (s : State) : (softReset s).lenb = 0#32 := rfl
@[simp] theorem softReset_mem (s : State) : (softReset s).mem = abandonOperand s := rfl
@[simp] theorem softReset_sched (s : State) : (softReset s).sched = s.sched := rfl
@[simp] theorem softReset_script (s : State) : (softReset s).script = s.script := rfl
@[simp] theorem softReset_reads (s : State) : (softReset s).reads = s.reads := rfl
@[simp] theorem softReset_result (s : State) : (softReset s).result = s.result := rfl
@[simp] theorem softReset_draws (s : State) : (softReset s).draws = s.draws := rfl

/-! `hardReset` -/

@[simp] theorem hardReset_params (s : State) : (hardReset s).params = s.params := rfl
@[simp] theorem hardReset_ctrl (s : State) : (hardReset s).ctrl = ctrlReset := rfl
@[simp] theorem hardReset_status (s : State) : (hardReset s).status = statusReset := rfl
@[simp] theorem hardReset_cmd (s : State) : (hardReset s).cmd = 0#32 := rfl
@[simp] theorem hardReset_errinfo (s : State) : (hardReset s).errinfo = 0#32 := rfl
@[simp] theorem hardReset_lena (s : State) : (hardReset s).lena = 0#32 := rfl
@[simp] theorem hardReset_lenb (s : State) : (hardReset s).lenb = 0#32 := rfl
@[simp] theorem hardReset_mem (s : State) : (hardReset s).mem = [] := rfl
@[simp] theorem hardReset_sched (s : State) : (hardReset s).sched = s.sched := rfl
@[simp] theorem hardReset_script (s : State) : (hardReset s).script = s.script := rfl
@[simp] theorem hardReset_reads (s : State) : (hardReset s).reads = s.reads := rfl
@[simp] theorem hardReset_result (s : State) : (hardReset s).result = s.result := rfl
@[simp] theorem hardReset_draws (s : State) : (hardReset s).draws = s.draws := rfl

/-! `pushRead` -/

@[simp] theorem pushRead_params (v : Word) (s : State) : (pushRead v s).params = s.params := rfl
@[simp] theorem pushRead_ctrl (v : Word) (s : State) : (pushRead v s).ctrl = s.ctrl := rfl
@[simp] theorem pushRead_status (v : Word) (s : State) : (pushRead v s).status = s.status := rfl
@[simp] theorem pushRead_cmd (v : Word) (s : State) : (pushRead v s).cmd = s.cmd := rfl
@[simp] theorem pushRead_errinfo (v : Word) (s : State) : (pushRead v s).errinfo = s.errinfo := rfl
@[simp] theorem pushRead_lena (v : Word) (s : State) : (pushRead v s).lena = s.lena := rfl
@[simp] theorem pushRead_lenb (v : Word) (s : State) : (pushRead v s).lenb = s.lenb := rfl
@[simp] theorem pushRead_mem (v : Word) (s : State) : (pushRead v s).mem = s.mem := rfl
@[simp] theorem pushRead_sched (v : Word) (s : State) : (pushRead v s).sched = s.sched := rfl
@[simp] theorem pushRead_script (v : Word) (s : State) : (pushRead v s).script = s.script := rfl
@[simp] theorem pushRead_reads (v : Word) (s : State) : (pushRead v s).reads = v :: s.reads := rfl
@[simp] theorem pushRead_result (v : Word) (s : State) : (pushRead v s).result = s.result := rfl
@[simp] theorem pushRead_draws (v : Word) (s : State) : (pushRead v s).draws = s.draws := rfl

/-! `pushFree` -/

@[simp] theorem pushFree_params (s : State) : (pushFree s).params = s.params := rfl
@[simp] theorem pushFree_ctrl (s : State) : (pushFree s).ctrl = s.ctrl := rfl
@[simp] theorem pushFree_status (s : State) : (pushFree s).status = s.status := rfl
@[simp] theorem pushFree_cmd (s : State) : (pushFree s).cmd = s.cmd := rfl
@[simp] theorem pushFree_errinfo (s : State) : (pushFree s).errinfo = s.errinfo := rfl
@[simp] theorem pushFree_lena (s : State) : (pushFree s).lena = s.lena := rfl
@[simp] theorem pushFree_lenb (s : State) : (pushFree s).lenb = s.lenb := rfl
@[simp] theorem pushFree_mem (s : State) : (pushFree s).mem = s.mem := rfl
@[simp] theorem pushFree_sched (s : State) : (pushFree s).sched = s.sched := rfl
@[simp] theorem pushFree_script (s : State) : (pushFree s).script = s.script := rfl
@[simp] theorem pushFree_reads (s : State) : (pushFree s).reads = Config.freeWord s.draws :: s.reads := rfl
@[simp] theorem pushFree_result (s : State) : (pushFree s).result = s.result := rfl
@[simp] theorem pushFree_draws (s : State) : (pushFree s).draws = s.draws + 1 := rfl

/-! `passTurn` -/

@[simp] theorem passTurn_params (s : State) : (passTurn s).params = s.params := rfl
@[simp] theorem passTurn_ctrl (s : State) : (passTurn s).ctrl = s.ctrl := rfl
@[simp] theorem passTurn_status (s : State) : (passTurn s).status = s.status := rfl
@[simp] theorem passTurn_cmd (s : State) : (passTurn s).cmd = s.cmd := rfl
@[simp] theorem passTurn_errinfo (s : State) : (passTurn s).errinfo = s.errinfo := rfl
@[simp] theorem passTurn_lena (s : State) : (passTurn s).lena = s.lena := rfl
@[simp] theorem passTurn_lenb (s : State) : (passTurn s).lenb = s.lenb := rfl
@[simp] theorem passTurn_mem (s : State) : (passTurn s).mem = s.mem := rfl
@[simp] theorem passTurn_sched (s : State) : (passTurn s).sched = s.sched.tail := rfl
@[simp] theorem passTurn_script (s : State) : (passTurn s).script = s.script := rfl
@[simp] theorem passTurn_reads (s : State) : (passTurn s).reads = s.reads := rfl
@[simp] theorem passTurn_result (s : State) : (passTurn s).result = s.result := rfl
@[simp] theorem passTurn_draws (s : State) : (passTurn s).draws = s.draws := rfl

/-! `writeStatus` -/

@[simp] theorem writeStatus_params (v : Word) (s : State) : (writeStatus v s).params = s.params := rfl
@[simp] theorem writeStatus_ctrl (v : Word) (s : State) : (writeStatus v s).ctrl = s.ctrl := rfl
@[simp] theorem writeStatus_status (v : Word) (s : State) : (writeStatus v s).status = clearFlags s.status v := rfl
@[simp] theorem writeStatus_cmd (v : Word) (s : State) : (writeStatus v s).cmd = s.cmd := rfl
@[simp] theorem writeStatus_errinfo (v : Word) (s : State) : (writeStatus v s).errinfo = s.errinfo := rfl
@[simp] theorem writeStatus_lena (v : Word) (s : State) : (writeStatus v s).lena = s.lena := rfl
@[simp] theorem writeStatus_lenb (v : Word) (s : State) : (writeStatus v s).lenb = s.lenb := rfl
@[simp] theorem writeStatus_mem (v : Word) (s : State) : (writeStatus v s).mem = s.mem := rfl
@[simp] theorem writeStatus_sched (v : Word) (s : State) : (writeStatus v s).sched = s.sched := rfl
@[simp] theorem writeStatus_script (v : Word) (s : State) : (writeStatus v s).script = s.script := rfl
@[simp] theorem writeStatus_reads (v : Word) (s : State) : (writeStatus v s).reads = s.reads := rfl
@[simp] theorem writeStatus_result (v : Word) (s : State) : (writeStatus v s).result = s.result := rfl
@[simp] theorem writeStatus_draws (v : Word) (s : State) : (writeStatus v s).draws = s.draws := rfl

/-! `overrunFlags` -/

@[simp] theorem overrunFlags_busy (f : Status) : (overrunFlags f).busy = f.busy := rfl
@[simp] theorem overrunFlags_done (f : Status) : (overrunFlags f).done = f.done := rfl
@[simp] theorem overrunFlags_err (f : Status) : (overrunFlags f).err = f.err := rfl
@[simp] theorem overrunFlags_ovr (f : Status) : (overrunFlags f).ovr = true := rfl
@[simp] theorem overrunFlags_errcode (f : Status) : (overrunFlags f).errcode = f.errcode := rfl

/-! `errorFlags` -/

@[simp] theorem errorFlags_busy (f : Status) (e : ErrCode) : (errorFlags f e).busy = f.busy := rfl
@[simp] theorem errorFlags_done (f : Status) (e : ErrCode) : (errorFlags f e).done = false := rfl
@[simp] theorem errorFlags_err (f : Status) (e : ErrCode) : (errorFlags f e).err = true := rfl
@[simp] theorem errorFlags_ovr (f : Status) (e : ErrCode) : (errorFlags f e).ovr = f.ovr := rfl
@[simp] theorem errorFlags_errcode (f : Status) (e : ErrCode) : (errorFlags f e).errcode = errorCode e := rfl

/-! `acceptFlags` -/

@[simp] theorem acceptFlags_busy (f : Status) : (acceptFlags f).busy = true := rfl
@[simp] theorem acceptFlags_done (f : Status) : (acceptFlags f).done = false := rfl
@[simp] theorem acceptFlags_err (f : Status) : (acceptFlags f).err = f.err := rfl
@[simp] theorem acceptFlags_ovr (f : Status) : (acceptFlags f).ovr = f.ovr := rfl
@[simp] theorem acceptFlags_errcode (f : Status) : (acceptFlags f).errcode = f.errcode := rfl

/-! `completeFlags` -/

@[simp] theorem completeFlags_busy (f : Status) : (completeFlags f).busy = false := rfl
@[simp] theorem completeFlags_done (f : Status) : (completeFlags f).done = true := rfl
@[simp] theorem completeFlags_err (f : Status) : (completeFlags f).err = f.err := rfl
@[simp] theorem completeFlags_ovr (f : Status) : (completeFlags f).ovr = f.ovr := rfl
@[simp] theorem completeFlags_errcode (f : Status) : (completeFlags f).errcode = f.errcode := rfl

/-! `clearFlags` -/

@[simp] theorem clearFlags_busy (f : Status) (v : Word) : (clearFlags f v).busy = f.busy := rfl
@[simp] theorem clearFlags_done (f : Status) (v : Word) : (clearFlags f v).done = (f.done && !v.getLsbD 1) := rfl
@[simp] theorem clearFlags_err (f : Status) (v : Word) : (clearFlags f v).err = f.err := rfl
@[simp] theorem clearFlags_ovr (f : Status) (v : Word) : (clearFlags f v).ovr = (f.ovr && !v.getLsbD 3) := rfl
@[simp] theorem clearFlags_errcode (f : Status) (v : Word) : (clearFlags f v).errcode = f.errcode := rfl

@[simp] theorem statusReset_busy : statusReset.busy = false := rfl
@[simp] theorem statusReset_done : statusReset.done = false := rfl
@[simp] theorem statusReset_err : statusReset.err = false := rfl
@[simp] theorem statusReset_ovr : statusReset.ovr = false := rfl
@[simp] theorem statusReset_errcode : statusReset.errcode = 0#4 := rfl

end Sys2Proof.Machine
end

