-- ==== Sys2Proof/Laws/Memory.lean ====
section
/-! SUPPORT. The laws of the sample memory: what a read gives after a write, and that every write keeps the canonical form. -/

namespace Sys2Proof.Machine

@[simp] theorem unlistedByte_none (a : Nat) : unlistedByte a = none := rfl

@[simp] theorem byteAt_nil (x : Nat) : byteAt [] x = none := rfl

theorem byteAt_cons (b : Nat) (v : BitVec 8) (m : Memory) (x : Nat) :
    byteAt ((b, v) :: m) x = if x = b then some v else byteAt m x := rfl

theorem byteAt_append (m n : Memory) (x : Nat) : byteAt (m ++ n) x = (byteAt m x).or (byteAt n x) := by
  induction m with
  | nil => simp
  | cons c m ih =>
    obtain ⟨b, v⟩ := c
    rw [List.cons_append, byteAt_cons, byteAt_cons, ih]
    split <;> simp

theorem byteAt_filter (p : Nat → Bool) (m : Memory) (x : Nat) :
    byteAt (m.filter fun c => p c.1) x = if p x then byteAt m x else none := by
  induction m with
  | nil => simp
  | cons c m ih =>
    obtain ⟨b, v⟩ := c
    rw [List.filter_cons]
    by_cases hb : x = b
    · subst hb
      by_cases hp : p x <;> simp [hp, byteAt_cons, ih]
    · by_cases hp : p b <;> simp [hp, byteAt_cons, hb, ih]

theorem byteAt_eq_none_of_forall_ne {m : Memory} {x : Nat} (h : ∀ c ∈ m, c.1 ≠ x) : byteAt m x = none := by
  induction m with
  | nil => rfl
  | cons c m ih =>
    obtain ⟨b, v⟩ := c
    have hb : x ≠ b := fun e => h (b, v) (by simp) e.symm
    rw [byteAt_cons, if_neg hb, ih fun c hc => h c (by simp [hc])]

theorem mem_cellsOf_bounds {a : Nat} {ws : List Sample} {c : Host.Cell} (h : c ∈ cellsOf a ws) :
    a ≤ c.1 ∧ c.1 < a + 4 * ws.length := by
  induction ws generalizing a with
  | nil => simp [cellsOf] at h
  | cons w ws ih =>
    cases w with
    | none => have := ih (a := a + 4) (by simpa [cellsOf] using h); simp; omega
    | some w =>
      simp only [cellsOf, List.mem_cons] at h
      rcases h with rfl | rfl | rfl | rfl | h
      · simp
      · simp; omega
      · simp; omega
      · simp; omega
      · have := ih h; simp; omega

theorem cellsOf_wf (a : Nat) (ws : List Sample) : Memory.wf (cellsOf a ws) := by
  induction ws generalizing a with
  | nil => exact List.Pairwise.nil
  | cons w ws ih =>
    cases w with
    | none => exact ih (a + 4)
    | some w =>
      have hb : ∀ c ∈ cellsOf (a + 4) ws, a + 3 < c.1 := fun c hc => by have := mem_cellsOf_bounds hc; omega
      simp only [cellsOf, Memory.wf, List.pairwise_cons, List.mem_cons]
      refine ⟨?_, ?_, ?_, ?_, ih (a + 4)⟩
      · rintro c (rfl | rfl | rfl | hc) <;> first | (simp; done) | (have := hb c hc; omega)
      · rintro c (rfl | rfl | hc) <;> first | (simp; done) | (have := hb c hc; omega)
      · rintro c (rfl | hc) <;> first | (simp; done) | (have := hb c hc; omega)
      · intro c hc; have := hb c hc; omega

/-- The byte `k` of the word `i` among consecutive words. -/
theorem byteAt_cellsOf {a i k : Nat} {ws : List Sample} (hi : i < ws.length) (hk : k < 4) :
    byteAt (cellsOf a ws) (a + 4 * i + k) = (ws[i]).map fun w => w.extractLsb' (8 * k) 8 := by
  induction ws generalizing a i with
  | nil => simp at hi
  | cons w ws ih =>
    have rest : ∀ j, i = j + 1 → byteAt (cellsOf (a + 4) ws) (a + 4 * i + k) =
        ((w :: ws)[i]).map fun w => w.extractLsb' (8 * k) 8 := by
      rintro j rfl
      have hj : j < ws.length := by simpa using hi
      have e : a + 4 * (j + 1) + k = a + 4 + 4 * j + k := by omega
      rw [e, ih hj]
      simp
    cases w with
    | none =>
      cases i with
      | zero =>
        rw [cellsOf]
        refine byteAt_eq_none_of_forall_ne fun c hc => ?_
        have := mem_cellsOf_bounds hc; omega
      | succ j => rw [cellsOf]; exact rest j rfl
    | some w =>
      cases i with
      | zero =>
        obtain rfl | rfl | rfl | rfl : k = 0 ∨ k = 1 ∨ k = 2 ∨ k = 3 := by omega
        all_goals simp [cellsOf, byteAt_cons]
      | succ j =>
        simp only [cellsOf, byteAt_cons]
        rw [if_neg (by omega), if_neg (by omega), if_neg (by omega), if_neg (by omega)]
        exact rest j rfl

theorem byteAt_cellsOf_outside {a x : Nat} {ws : List Sample} (h : x < a ∨ a + 4 * ws.length ≤ x) :
    byteAt (cellsOf a ws) x = none :=
  byteAt_eq_none_of_forall_ne fun c hc => by have := mem_cellsOf_bounds hc; omega

theorem byteAt_writeWords (m : Memory) (a : Nat) (ws : List Sample) (x : Nat) :
    byteAt (writeWords m a ws) x =
      if a ≤ x ∧ x < a + 4 * ws.length then byteAt (cellsOf a ws) x else byteAt m x := by
  have hl := byteAt_filter (fun b => decide (b < a)) m x
  have hr := byteAt_filter (fun b => decide (a + 4 * ws.length ≤ b)) m x
  rw [writeWords, byteAt_append, byteAt_append, hl, hr]
  by_cases h1 : x < a
  · simp [byteAt_cellsOf_outside (ws := ws) (Or.inl h1), h1, show ¬(a + 4 * ws.length ≤ x) by omega,
      show ¬(a ≤ x ∧ x < a + 4 * ws.length) by omega]
  · by_cases h2 : a + 4 * ws.length ≤ x
    · simp [byteAt_cellsOf_outside (a := a) (ws := ws) (Or.inr h2), h1, h2, show ¬(a ≤ x ∧ x < a + 4 * ws.length) by omega]
    · simp [h1, h2, show a ≤ x ∧ x < a + 4 * ws.length by omega]

/-- A write changes no byte outside the words it writes. -/
theorem byteAt_writeWords_outside {m : Memory} {a x : Nat} {ws : List Sample} (h : x < a ∨ a + 4 * ws.length ≤ x) :
    byteAt (writeWords m a ws) x = byteAt m x := by
  rw [byteAt_writeWords, if_neg (by omega)]

/-- A word written reads as it was written, byte by byte, little-endian (R68). -/
theorem byteAt_writeWords_inside {m : Memory} {a i k : Nat} {ws : List Sample} (hi : i < ws.length) (hk : k < 4) :
    byteAt (writeWords m a ws) (a + 4 * i + k) = (ws[i]).map fun w => w.extractLsb' (8 * k) 8 := by
  rw [byteAt_writeWords, if_pos (by omega), byteAt_cellsOf hi hk]

theorem joinBytes_extract (w : Sample) :
    joinBytes (w.map fun w => w.extractLsb' 0 8) (w.map fun w => w.extractLsb' 8 8) (w.map fun w => w.extractLsb' 16 8)
      (w.map fun w => w.extractLsb' 24 8) = w := by
  cases w with
  | none => rfl
  | some w =>
    simp only [Option.map_some, joinBytes, Option.some.injEq]
    ext i hi
    simp only [BitVec.getElem_append, BitVec.getElem_extractLsb']
    repeat' split
    all_goals
      first
      | omega
      | (rw [← BitVec.getLsbD_eq_getElem]; congr 1; omega)

/-- A word written reads as it was written. -/
theorem wordAt_writeWords_inside {m : Memory} {a i : Nat} {ws : List Sample} (hi : i < ws.length) :
    wordAt (writeWords m a ws) (a + 4 * i) = ws[i] := by
  have h := fun k hk => byteAt_writeWords_inside (m := m) (a := a) (k := k) hi hk
  have h0 := h 0 (by omega)
  rw [Nat.add_zero] at h0
  rw [wordAt, h0, h 1 (by omega), h 2 (by omega), h 3 (by omega)]
  exact joinBytes_extract _

/-- A write changes no word outside the words it writes. -/
theorem wordAt_writeWords_outside {m : Memory} {a x : Nat} {ws : List Sample} (h : x + 4 ≤ a ∨ a + 4 * ws.length ≤ x) :
    wordAt (writeWords m a ws) x = wordAt m x := by
  have hb := fun k (hk : k < 4) => byteAt_writeWords_outside (m := m) (a := a) (x := x + k) (ws := ws) (by omega)
  have h0 := hb 0 (by omega)
  rw [Nat.add_zero] at h0
  rw [wordAt, h0, hb 1 (by omega), hb 2 (by omega), hb 3 (by omega), wordAt]

/-- Every write keeps the canonical form. -/
theorem writeWords_wf {m : Memory} (a : Nat) (ws : List Sample) (h : m.wf) : Memory.wf (writeWords m a ws) := by
  rw [Memory.wf, writeWords, List.pairwise_append, List.pairwise_append]
  refine ⟨⟨h.filter _, cellsOf_wf a ws, ?_⟩, h.filter _, ?_⟩
  · intro c hc d hd
    have := mem_cellsOf_bounds hd
    have := of_decide_eq_true (List.mem_filter.1 hc).2
    omega
  · intro c hc d hd
    have := of_decide_eq_true (List.mem_filter.1 hd).2
    rcases List.mem_append.1 hc with hc | hc
    · have := of_decide_eq_true (List.mem_filter.1 hc).2
      omega
    · have := mem_cellsOf_bounds hc
      omega

theorem byteAt_head {b : Nat} {v : BitVec 8} {m : Memory} (h : Memory.wf ((b, v) :: m)) {x : Nat} (hx : x ≤ b) :
    byteAt m x = none :=
  byteAt_eq_none_of_forall_ne fun c hc => by
    have h1 : b < c.1 := (List.pairwise_cons.1 h).1 c hc
    omega

/-- Equal memories are equal data: two memories in canonical form that read alike are one list. -/
theorem Memory.ext_of_wf {m n : Memory} (hm : m.wf) (hn : n.wf) (h : ∀ x, byteAt m x = byteAt n x) : m = n := by
  induction m generalizing n with
  | nil =>
    cases n with
    | nil => rfl
    | cons c n => obtain ⟨b, v⟩ := c; have := h b; simp [byteAt_cons] at this
  | cons c m ih =>
    obtain ⟨b, v⟩ := c
    cases n with
    | nil => have := h b; simp [byteAt_cons] at this
    | cons d n =>
      obtain ⟨b', v'⟩ := d
      have hb : b = b' := by
        rcases Nat.lt_trichotomy b b' with hl | he | hl
        · have := h b
          rw [byteAt_cons, byteAt_cons, if_pos rfl, if_neg (by omega), byteAt_head hn (by omega)] at this
          cases this
        · exact he
        · have := h b'
          rw [byteAt_cons, byteAt_cons, if_pos rfl, if_neg (by omega), byteAt_head hm (by omega)] at this
          cases this
      subst hb
      have hv : v = v' := by simpa [byteAt_cons] using h b
      subst hv
      rw [ih (List.pairwise_cons.1 hm).2 (List.pairwise_cons.1 hn).2 fun x => ?_]
      by_cases hx : x = b
      · subst hx; rw [byteAt_head hm (Nat.le_refl _), byteAt_head hn (Nat.le_refl _)]
      · simpa [byteAt_cons, hx] using h x

/-- The cells after a write are old cells or cells of the words written. -/
theorem mem_writeWords {m : Memory} {a : Nat} {ws : List Sample} {c : Host.Cell} (h : c ∈ writeWords m a ws) :
    c ∈ m ∨ (a ≤ c.1 ∧ c.1 < a + 4 * ws.length) := by
  rw [writeWords, List.mem_append, List.mem_append] at h
  rcases h with (h | h) | h
  · exact Or.inl (List.mem_filter.1 h).1
  · exact Or.inr (mem_cellsOf_bounds h)
  · exact Or.inl (List.mem_filter.1 h).1

/-- Every write of a buffer keeps the canonical form. -/
theorem writeBuf_wf {s : State} (b : Buf) (xs : List Cx) (h : s.mem.wf) : Memory.wf (writeBuf s b xs) :=
  writeWords_wf _ _ (writeWords_wf _ _ h)

/-- A write of a buffer changes no byte outside its two planes' words. -/
theorem byteAt_writeBuf_outside {s : State} {b : Buf} {xs : List Cx} {x : Nat}
    (hre : x < planeBase s.params (rePlane b) ∨ planeBase s.params (rePlane b) + 4 * xs.length ≤ x)
    (him : x < planeBase s.params (imPlane b) ∨ planeBase s.params (imPlane b) + 4 * xs.length ≤ x) :
    byteAt (writeBuf s b xs) x = byteAt s.mem x := by
  rw [writeBuf, byteAt_writeWords_outside (by simpa using him), byteAt_writeWords_outside (by simpa using hre)]

theorem planeBytes_eq (p : Params) : planeBytes p = 4 * nmax p := by
  rw [planeBytes, nmax, Nat.pow_add]
  omega

theorem planeBase_step (p : Params) (pl : Plane) : planeBase p pl = planeBytes p + planeNumber pl * planeBytes p := by
  rw [planeBase, Nat.add_mul, Nat.one_mul]

theorem planeNumber_inj {p q : Plane} (h : planeNumber p = planeNumber q) : p = q := by
  cases p <;> cases q <;> simp_all [planeNumber]

/-- Two planes do not overlap (R64). -/
theorem planeBase_disjoint {p : Params} {a b : Plane} (h : a ≠ b) :
    planeBase p a + 4 * nmax p ≤ planeBase p b ∨ planeBase p b + 4 * nmax p ≤ planeBase p a := by
  have hn : planeNumber a ≠ planeNumber b := fun e => h (planeNumber_inj e)
  rw [planeBase_step, planeBase_step, planeBytes_eq]
  rcases Nat.lt_or_gt_of_ne hn with hl | hl
  · have := Nat.mul_le_mul_right (4 * nmax p) hl
    rw [Nat.succ_mul] at this
    exact Or.inl (by omega)
  · have := Nat.mul_le_mul_right (4 * nmax p) hl
    rw [Nat.succ_mul] at this
    exact Or.inr (by omega)

theorem rePlane_ne_imPlane (b c : Buf) : rePlane b ≠ imPlane c := by cases b <;> cases c <;> simp [rePlane, imPlane]

/-- The sample words of the memory after consecutive words of one plane have been written. -/
theorem wordAt_writePlane {m : Memory} {p : Params} {pl q : Plane} {ws : List Sample} {i : Nat}
    (hw : ws.length ≤ nmax p) (hi : i < nmax p) :
    wordAt (writeWords m (planeBase p pl) ws) (sampleAddr p q i) =
      if h : q = pl ∧ i < ws.length then ws[i]'h.2 else wordAt m (sampleAddr p q i) := by
  by_cases hq : q = pl
  · subst hq
    by_cases hl : i < ws.length
    · rw [dif_pos ⟨rfl, hl⟩]
      exact wordAt_writeWords_inside hl
    · rw [dif_neg (by simp [hl])]
      exact wordAt_writeWords_outside (by rw [sampleAddr]; omega)
  · rw [dif_neg (by simp [hq])]
    refine wordAt_writeWords_outside ?_
    rw [sampleAddr]
    rcases planeBase_disjoint (p := p) hq with h | h <;> omega

/-- The elements of the destination buffer after a write of a buffer: the new ones, and the old ones above them. -/
theorem elemAt_writeBuf_self {s : State} {b : Buf} {xs : List Cx} {i : Nat} (hx : xs.length ≤ nmax s.params)
    (hi : i < nmax s.params) :
    elemAt { s with mem := writeBuf s b xs } b i = if h : i < xs.length then xs[i] else elemAt s b i := by
  have hne : rePlane b ≠ imPlane b := rePlane_ne_imPlane b b
  simp only [elemAt, sampleAt, writeBuf]
  rw [wordAt_writePlane (by simpa using hx) hi, wordAt_writePlane (by simpa using hx) hi,
    wordAt_writePlane (by simpa using hx) hi, wordAt_writePlane (by simpa using hx) hi]
  by_cases hl : i < xs.length
  · simp [hl, hne]
  · simp [hl]

/-- The elements of the other buffer are as before. -/
theorem elemAt_writeBuf_other {s : State} {b c : Buf} {xs : List Cx} {i : Nat} (hx : xs.length ≤ nmax s.params)
    (hi : i < nmax s.params) (hc : c ≠ b) :
    elemAt { s with mem := writeBuf s b xs } c i = elemAt s c i := by
  have h1 : rePlane c ≠ rePlane b := by cases b <;> cases c <;> simp_all [rePlane]
  have h2 : imPlane c ≠ imPlane b := by cases b <;> cases c <;> simp_all [imPlane]
  have h3 := rePlane_ne_imPlane c b
  have h4 := rePlane_ne_imPlane b c
  simp only [elemAt, sampleAt, writeBuf]
  rw [wordAt_writePlane (by simpa using hx) hi, wordAt_writePlane (by simpa using hx) hi,
    wordAt_writePlane (by simpa using hx) hi, wordAt_writePlane (by simpa using hx) hi]
  simp [h1, h2, h3, h4.symm]

@[simp] theorem readBuf_length (s : State) (b : Buf) (n : Nat) : (readBuf s b n).length = n := by simp [readBuf]

theorem readBuf_getElem (s : State) (b : Buf) (n i : Nat) (h : i < (readBuf s b n).length) :
    (readBuf s b n)[i] = elemAt s b i := by simp [readBuf]

end Sys2Proof.Machine
end

