-- ==== Sys2Proof/Laws/Commands.lean ====
section
/-! SUPPORT. What a command, its issue, a host's operation and a step can do, each said once. -/

namespace Sys2Proof.Machine

/-- Every command's meaning is the one life of a command over its own validation and buffer update (R215 to R219, R266). -/
theorem exec_eq (i : Instr) (s : State) : exec i s = runCommand i (validate i s) (updateOf i) s := by cases i <;> rfl

/-- The engine completes a validated command. -/
theorem exec_busy {i : Instr} {s : State} (hb : s.status.busy = true) (hv : validate i s = none) :
    exec i s = .next (complete (updateOf i s) s) := by
  simp [exec_eq, runCommand, hb, hv]

/-- A command that passes validation in the idle state is accepted. -/
theorem exec_accept {i : Instr} {s : State} (h : Idle s) (hv : validate i s = none) :
    exec i s = .next (accept (encode i) s) := by
  simp [exec_eq, runCommand, h.1, h.2, hv]

/-- A command that fails validation in the idle state takes the error entry. -/
theorem exec_error {i : Instr} {s : State} {e : ErrCode} (h : Idle s) (hv : validate i s = some e) :
    exec i s = .next (errorEntry e (encode i) s) := by
  simp [exec_eq, runCommand, h.1, h.2, hv]

/-- All a command's meaning can do when it answers a next state. -/
theorem exec_cases {i : Instr} {s t : State} (h : exec i s = .next t) :
    (s.status.busy = true ∧ validate i s = none ∧ t = complete (updateOf i s) s) ∨
    (s.status.busy = false ∧ s.status.err = true ∧ t = dropWrite s) ∨
    (Idle s ∧ ∃ e, validate i s = some e ∧ t = errorEntry e (encode i) s) ∨
    (Idle s ∧ validate i s = none ∧ t = accept (encode i) s) := by
  rw [exec_eq] at h
  unfold runCommand at h
  by_cases hb : s.status.busy = true
  · rw [if_pos hb] at h
    cases hv : validate i s with
    | none => rw [hv] at h; injection h with h; exact Or.inl ⟨hb, rfl, h.symm⟩
    | some e => rw [hv] at h; cases h
  · have hb' : s.status.busy = false := by simpa using hb
    rw [if_neg hb] at h
    by_cases he : s.status.err = true
    · rw [if_pos he] at h; injection h with h; exact Or.inr (Or.inl ⟨hb', he, h.symm⟩)
    · have hi : Idle s := ⟨hb', by simpa using he⟩
      rw [if_neg he] at h
      cases hv : validate i s with
      | none => rw [hv] at h; injection h with h; exact Or.inr (Or.inr (Or.inr ⟨hi, rfl, h.symm⟩))
      | some e => rw [hv] at h; injection h with h; exact Or.inr (Or.inr (Or.inl ⟨hi, e, rfl, h.symm⟩))

/-- A command's meaning refuses nothing. -/
theorem exec_not_refused (i : Instr) (s : State) (r : Refusal) : exec i s ≠ .refused r := by
  rw [exec_eq]
  unfold runCommand
  split
  · split <;> simp
  · split
    · simp
    · split <;> simp

theorem locked_eq_false_iff (s : State) : locked s = false ↔ Idle s := by simp [locked, Idle]

theorem locked_eq_true_iff (s : State) : locked s = true ↔ s.status.busy = true ∨ s.status.err = true := by simp [locked]

/-- In the fault state and while BUSY a write to CMD is dropped. -/
theorem issueCommand_locked {w : Word} {s : State} (h : locked s = true) : issueCommand w s = .next (dropWrite s) := by
  simp [issueCommand, h]

/-- A word that fails validation in the idle state takes the error entry with that word. -/
theorem issueCommand_illegal {w : Word} {s : State} {r : Reject} (h : Idle s) (hd : decodeWord w = .error r) :
    issueCommand w s = .next (errorEntry .illegalCommand w s) := by
  simp [issueCommand, (locked_eq_false_iff s).2 h, hd]

/-- A word that decodes meets its command's meaning in the idle state. -/
theorem issueCommand_decoded {w : Word} {s : State} {i : Instr} (h : Idle s) (hd : decodeWord w = .ok i) :
    issueCommand w s = exec i s := by
  simp [issueCommand, (locked_eq_false_iff s).2 h, hd]

/-- The engine's turn runs the command in CMD. -/
theorem engineTurn_busy {s : State} {i : Instr} (hb : s.status.busy = true) (hd : decodeWord s.cmd = .ok i) :
    engineTurn s = exec i s := by
  simp [engineTurn, hb, hd]

theorem engineTurn_idle {s : State} (hb : s.status.busy = false) : engineTurn s = .next s := by
  simp [engineTurn, hb]

/-- Validation looks at the lengths and the configuration alone (R215). -/
theorem validate_congr {i : Instr} {s t : State} (hp : s.params = t.params) (ha : s.lena = t.lena) (hb : s.lenb = t.lenb) :
    validate i s = validate i t := by
  have hl : ∀ b, len s b = len t b := by intro b; cases b <;> simp [len, lenWord, ha, hb]
  have hpair : ∀ c n, checkPair c n s = checkPair c n t := by intro c n; simp [checkPair, hp, ha, hb]
  have htr : ∀ d, checkTransform d s = checkTransform d t := by intro d; simp [checkTransform, hp, hl]
  cases i <;> simp [validate, checkStage, checkCmul, checkMagph, hp, hl, hpair, htr]

/-- A length that passes the checks of a transform is a power of two of the unit's capacity (R162). -/
theorem checkTransform_none {d : Buf} {s : State} (h : checkTransform d s = none) :
    isPow2 (len s d) = true ∧ len s d ≤ nmax s.params := by
  rw [checkTransform, checkLength] at h
  split at h
  · cases h
  · split at h
    · cases h
    · rename_i h1 h2
      exact ⟨by simpa using h1, by omega⟩

theorem checkPair_none {c : Bool} {n : Nat} {s : State} (h : checkPair c n s = none) :
    n ≤ nmax s.params ∧ (c = true → s.lena = s.lenb) := by
  rw [checkPair] at h
  split at h
  · cases h
  · split at h
    · cases h
    · rename_i h1 h2
      exact ⟨by omega, fun hc => by simpa [hc] using h1⟩

/-- A validated command's operand length is at most the capacity (R263). -/
theorem operandLen_le {i : Instr} {s : State} (h : validate i s = none) : operandLen i s ≤ nmax s.params := by
  cases i with
  | fft d => exact (checkTransform_none h).2
  | ifft d => exact (checkTransform_none h).2
  | bitrev d => exact (checkTransform_none h).2
  | scale d => exact (checkTransform_none h).2
  | bfstg d stg inv =>
    simp only [validate, checkStage] at h
    split at h
    · cases h
    · rename_i ht
      exact (checkTransform_none ht).2
  | cmul d s1 s2 => exact (checkPair_none h).1
  | magph d s1 =>
    simp only [validate, checkMagph] at h
    split at h
    · cases h
    · exact (checkPair_none h).1

/-- The hardware never raises the driver's EmptyInput (R238, R260). -/
theorem validate_ne_emptyInput (i : Instr) (s : State) : validate i s ≠ some .emptyInput := by
  have ht : ∀ d, checkTransform d s ≠ some .emptyInput := by
    intro d
    rw [checkTransform, checkLength]
    split
    · simp
    · split <;> simp
  have hp : ∀ c n, checkPair c n s ≠ some .emptyInput := by
    intro c n
    rw [checkPair]
    split
    · simp
    · split <;> simp
  cases i with
  | fft d => exact ht d
  | ifft d => exact ht d
  | bitrev d => exact ht d
  | scale d => exact ht d
  | bfstg d stg inv =>
    rw [validate, checkStage]
    split
    · rename_i e he
      rw [← he]
      exact ht d
    · split <;> simp
  | cmul d s1 s2 => exact hp _ _
  | magph d s1 =>
    rw [validate, checkMagph]
    split
    · simp
    · exact hp _ _

@[simp] theorem bitrevSeq_length (n : Nat) (xs : List Cx) : (bitrevSeq n xs).length = xs.length := by simp [bitrevSeq]

@[simp] theorem stageSeq_length (tw : Nat → Cx) (h : Nat) (xs : List Cx) : (stageSeq tw h xs).length = xs.length := by
  simp [stageSeq]

@[simp] theorem stageOf_length (l : Nat) (inv : Dir) (stg : Nat) (xs : List Cx) :
    (stageOf l inv stg xs).length = xs.length := by simp [stageOf]

@[simp] theorem stagesSeq_length (l : Nat) (inv : Dir) (n : Nat) (xs : List Cx) :
    (stagesSeq l inv n xs).length = xs.length := by
  induction n with
  | zero => rfl
  | succ n ih => simp [stagesSeq, ih]

@[simp] theorem scaleSeq_length (n : Nat) (xs : List Cx) : (scaleSeq n xs).length = xs.length := by simp [scaleSeq]

@[simp] theorem fftSeq_length (l : Nat) (xs : List Cx) : (fftSeq l xs).length = xs.length := by simp [fftSeq]

@[simp] theorem ifftSeq_length (l : Nat) (xs : List Cx) : (ifftSeq l xs).length = xs.length := by simp [ifftSeq]

/-- The elements a command writes into its destination buffer, computed from the state before it (R219). -/
def resultOf : Instr → State → List Cx
  | .fft d, s => fftSeq (lognmax s.params) (readBuf s d (len s d))
  | .ifft d, s => ifftSeq (lognmax s.params) (readBuf s d (len s d))
  | .cmul _ s1 s2, s => List.zipWith cmul (readBuf s s1 (len s s1)) (readBuf s s2 (len s s1))
  | .bitrev d, s => bitrevSeq (len s d).log2 (readBuf s d (len s d))
  | .bfstg d stg inv, s => stageOf (lognmax s.params) inv stg (readBuf s d (len s d))
  | .scale d, s => scaleSeq (len s d) (readBuf s d (len s d))
  | .magph _ s1, s => (readBuf s s1 (len s s1)).map (magPhase s.params)

/-- Every buffer update writes as many elements as the operand length, into the destination buffer (R22). -/
theorem updateOf_eq (i : Instr) (s : State) :
    updateOf i s = writeBuf s (destOf i) (resultOf i s) ∧ (resultOf i s).length = operandLen i s := by
  cases i <;> exact ⟨rfl, by simp [resultOf, operandLen, lengthBuf]⟩

/-- A command's update changes no byte outside its destination operand (R22, R171). -/
theorem byteAt_updateOf {i : Instr} {s : State} {x : Nat}
    (hre : x < planeBase s.params (rePlane (destOf i)) ∨ planeBase s.params (rePlane (destOf i)) + 4 * operandLen i s ≤ x)
    (him : x < planeBase s.params (imPlane (destOf i)) ∨ planeBase s.params (imPlane (destOf i)) + 4 * operandLen i s ≤ x) :
    byteAt (updateOf i s) x = byteAt s.mem x := by
  have h := updateOf_eq i s
  rw [h.1]
  exact byteAt_writeBuf_outside (by rw [h.2]; exact hre) (by rw [h.2]; exact him)

/-- Every command's update keeps the canonical form of the memory. -/
theorem updateOf_wf {i : Instr} {s : State} (h : s.mem.wf) : Memory.wf (updateOf i s) := by
  rw [(updateOf_eq i s).1]
  exact writeBuf_wf _ _ h

/-- The destination buffer after a completed command: the result below the operand length, as before above it. -/
theorem elemAt_complete {i : Instr} {s : State} {k : Nat} (hv : validate i s = none) (hk : k < nmax s.params) :
    elemAt (complete (updateOf i s) s) (destOf i) k =
      if h : k < (resultOf i s).length then (resultOf i s)[k] else elemAt s (destOf i) k := by
  have h := updateOf_eq i s
  have he := elemAt_writeBuf_self (s := s) (b := destOf i) (xs := resultOf i s) (i := k)
    (by rw [h.2]; exact operandLen_le hv) hk
  rw [← he, h.1]
  rfl

/-- A soft reset keeps the canonical form of the memory. -/
theorem abandonOperand_wf {s : State} (h : s.mem.wf) : Memory.wf (abandonOperand s) := by
  rw [abandonOperand]
  split
  · split
    · exact writeBuf_wf _ _ h
    · exact h
  · exact h

/-- One step is the turn of the agent that moves next. -/
theorem step_host {s : State} (h : nextAgent s = .host) : step s = hostTurn (passTurn s) := by simp [step, h]

theorem step_engine {s : State} (h : nextAgent s = .engine) : step s = engineTurn (passTurn s) := by simp [step, h]

end Sys2Proof.Machine
end

