-- ==== Sys2Proof/Laws/PerInstr.lean ====
section
/-! SUPPORT. Statements for all instructions, one lemma per constructor.

EncodedRow: the command word of a well-formed instruction hits its own row of the opcode table and no other row (R95, R100). -/

namespace Sys2Proof.Laws.EncodedRow

/-- The row of the opcode table an instruction belongs to (R95). -/
def rowOf : Instr → Word × Word
  | .fft _ => rowFft
  | .ifft _ => rowIfft
  | .cmul _ _ _ => rowCmul
  | .bitrev _ => rowBitrev
  | .bfstg _ _ _ => rowBfstg
  | .scale _ => rowScale
  | .magph _ _ => rowMagph

/-- The word of a well-formed instruction hits its own row alone. -/
def Statement (i : Instr) : Prop := WellFormed i = true → opcodeRows.filter (fun r => rowHit r (encode i)) = [rowOf i]

theorem fft (d : Buf) : Statement (.fft d) := by cases d <;> (unfold Statement; decide)

theorem ifft (d : Buf) : Statement (.ifft d) := by cases d <;> (unfold Statement; decide)

theorem cmul (d s1 s2 : Buf) : Statement (.cmul d s1 s2) := by cases d <;> cases s1 <;> cases s2 <;> (unfold Statement; decide)

theorem bitrev (d : Buf) : Statement (.bitrev d) := by cases d <;> (unfold Statement; decide)

theorem bfstg_bounded (d : Buf) (inv : Dir) :
    ∀ stg < 32, opcodeRows.filter (fun r => rowHit r (encode (.bfstg d stg inv))) = [rowBfstg] := by
  cases d <;> cases inv <;> decide +kernel

theorem bfstg (d : Buf) (stg : Nat) (inv : Dir) : Statement (.bfstg d stg inv) := by
  intro h
  exact bfstg_bounded d inv stg (by simpa [WellFormed] using h)

theorem scale (d : Buf) : Statement (.scale d) := by cases d <;> (unfold Statement; decide)

theorem magph (d s1 : Buf) : Statement (.magph d s1) := by cases d <;> cases s1 <;> (unfold Statement; decide)

end Sys2Proof.Laws.EncodedRow
end

