-- ==== Sys2Proof/Laws/Steps.lean ====
section
/-! SUPPORT. What the host's operations and a step can do, said once as a list of cases. -/

namespace Sys2Proof.Machine

theorem SameUnit.refl (s : State) : SameUnit s s := ⟨rfl, rfl, rfl, rfl, rfl, rfl, rfl, rfl⟩

theorem sameUnit_pushRead (v : Word) (s : State) : SameUnit s (pushRead v s) := ⟨rfl, rfl, rfl, rfl, rfl, rfl, rfl, rfl⟩

theorem sameUnit_pushFree (s : State) : SameUnit s (pushFree s) := ⟨rfl, rfl, rfl, rfl, rfl, rfl, rfl, rfl⟩

theorem sameUnit_passTurn (s : State) : SameUnit s (passTurn s) := ⟨rfl, rfl, rfl, rfl, rfl, rfl, rfl, rfl⟩

theorem sameUnit_waitPoll (s : State) : SameUnit s (waitPoll s) := by
  unfold waitPoll
  split <;> exact ⟨rfl, rfl, rfl, rfl, rfl, rfl, rfl, rfl⟩

theorem sameUnit_abortIfErr (s : State) : SameUnit s (abortIfErr s) := by
  unfold abortIfErr
  dsimp only
  split <;> exact ⟨rfl, rfl, rfl, rfl, rfl, rfl, rfl, rfl⟩

theorem sameUnit_abortIfLensDiffer (s : State) : SameUnit s (abortIfLensDiffer s) := by
  unfold abortIfLensDiffer
  split
  · split <;> exact ⟨rfl, rfl, rfl, rfl, rfl, rfl, rfl, rfl⟩
  · exact SameUnit.refl s

theorem sameUnit_convolve (a b : List Word) (s : State) : SameUnit s (convolve a b s) := by
  unfold convolve
  split
  · exact ⟨rfl, rfl, rfl, rfl, rfl, rfl, rfl, rfl⟩
  · split <;> exact ⟨rfl, rfl, rfl, rfl, rfl, rfl, rfl, rfl⟩

/-- A write to CTRL with bit 0 set is the soft reset (R33). -/
theorem writeCtrl_reset {v : Word} (h : v.getLsbD 0 = true) (s : State) : writeCtrl v s = softReset s := if_pos h

/-- A write to CTRL with bit 0 clear sets the enables alone (R33, R223). -/
theorem writeCtrl_enables {v : Word} (h : v.getLsbD 0 = false) (s : State) :
    writeCtrl v s = { s with ctrl := { ieDone := v.getLsbD 1, ieErr := v.getLsbD 2 } } := if_neg (by rw [h]; decide)

/-- A soft reset with no command in flight preserves the sample memory (R302). -/
theorem abandonOperand_idle {s : State} (h : s.status.busy = false) : abandonOperand s = s.mem := by simp [abandonOperand, h]

@[simp] theorem dropCall_nil : dropCall [] = [] := rfl

@[simp] theorem dropCall_returnOutput (n : Nat) (rest : List HostOp) : dropCall (.returnOutput n :: rest) = rest := rfl

/-- An abort gives up every operation of the call before its last (R244). -/
theorem dropCall_cons {op : HostOp} (h : ∀ n, op ≠ .returnOutput n) (rest : List HostOp) : dropCall (op :: rest) = dropCall rest := by
  cases op with
  | returnOutput n => exact absurd rfl (h n)
  | _ => rfl

/-- What a host operation can do to the unit when it answers a next state `t`. -/
inductive HostEffect (s t : State) : Prop where
  /-- Nothing: a read, an ignored write, or a step of the driver. -/
  | same (h : SameUnit s t)
  /-- A dropped write (R71). -/
  | dropped (hl : locked s = true) (h : t = dropWrite s)
  /-- A write to STATUS (R34). -/
  | flags (v : Word) (h : t = writeStatus v s)
  /-- A write to CTRL (R33). -/
  | control (v : Word) (h : t = writeCtrl v s)
  /-- The hard reset (R300). -/
  | cleared (h : t = hardReset s)
  /-- A write to LENA (R37). -/
  | lengthA (hi : Idle s) (v : Word) (h : t = { s with lena := v })
  /-- A write to LENB (R38). -/
  | lengthB (hi : Idle s) (v : Word) (h : t = { s with lenb := v })
  /-- A sample write (R73). -/
  | stored (hi : Idle s) (pl : Plane) (k : Nat) (hk : k < nmax s.params) (v : Word)
    (h : t = { s with mem := writeWords s.mem (sampleAddr s.params pl k) [some v] })
  /-- A word that is no command (R265). -/
  | illegal (hi : Idle s) (w : Word) (r : Reject) (hd : decodeWord w = .error r) (h : t = errorEntry .illegalCommand w s)
  /-- A command that fails its validation (R216). -/
  | rejected (hi : Idle s) (w : Word) (i : Instr) (hd : decodeWord w = .ok i) (e : ErrCode) (hv : validate i s = some e)
    (h : t = errorEntry e (encode i) s)
  /-- A command accepted (R217). -/
  | accepted (hi : Idle s) (w : Word) (i : Instr) (hd : decodeWord w = .ok i) (hv : validate i s = none)
    (h : t = accept (encode i) s)

theorem issueCommand_effect {w : Word} {s t : State} (h : issueCommand w s = .next t) : HostEffect s t := by
  by_cases hl : locked s = true
  · rw [issueCommand_locked hl] at h
    injection h with h
    exact .dropped hl h.symm
  · have hi : Idle s := (locked_eq_false_iff s).1 (by simpa using hl)
    cases hd : decodeWord w with
    | error r =>
      rw [issueCommand_illegal hi hd] at h
      injection h with h
      exact .illegal hi w r hd h.symm
    | ok i =>
      rw [issueCommand_decoded hi hd] at h
      rcases exec_cases h with ⟨hb, _⟩ | ⟨_, he, _⟩ | ⟨_, e, hv, ht⟩ | ⟨_, hv, ht⟩
      · rw [hi.1] at hb; cases hb
      · rw [hi.2] at he; cases he
      · exact .rejected hi w i hd e hv ht
      · exact .accepted hi w i hd hv ht

theorem regWrite_effect {r : Reg} {v : Word} {s t : State} (h : regWrite r v s = .next t) : HostEffect s t := by
  cases r with
  | cmd => exact issueCommand_effect h
  | lena =>
    rw [regWrite, writeLena] at h
    injection h with h
    by_cases hl : locked s = true
    · rw [if_pos hl] at h; exact .dropped hl h.symm
    · rw [if_neg hl] at h; exact .lengthA ((locked_eq_false_iff s).1 (by simpa using hl)) v h.symm
  | lenb =>
    rw [regWrite, writeLenb] at h
    injection h with h
    by_cases hl : locked s = true
    · rw [if_pos hl] at h; exact .dropped hl h.symm
    · rw [if_neg hl] at h; exact .lengthB ((locked_eq_false_iff s).1 (by simpa using hl)) v h.symm
  | ctrl => injection h with h; exact .control v h.symm
  | status => injection h with h; exact .flags v h.symm
  | id => injection h with h; exact .same (h ▸ SameUnit.refl s)
  | cap => injection h with h; exact .same (h ▸ SameUnit.refl s)
  | errinfo => injection h with h; exact .same (h ▸ SameUnit.refl s)

/-- A sample read changes nothing of the unit (R72, R74). -/
theorem sampleRead_same {pl : Plane} {k : Nat} {s t : State} (h : sampleRead pl k s = .next t) : SameUnit s t := by
  unfold sampleRead at h
  split at h
  · cases h
  · split at h
    · injection h with h; exact h ▸ sameUnit_pushFree s
    · split at h
      · injection h with h; exact h ▸ sameUnit_pushRead _ s
      · injection h with h; exact h ▸ sameUnit_pushFree s

theorem sampleWrite_effect {pl : Plane} {k : Nat} {v : Word} {s t : State} (h : sampleWrite pl k v s = .next t) :
    HostEffect s t := by
  unfold sampleWrite at h
  split at h
  · cases h
  · rename_i hk
    split at h
    · rename_i hl
      injection h with h
      exact .dropped hl h.symm
    · rename_i hl
      injection h with h
      exact .stored ((locked_eq_false_iff s).1 (by simpa using hl)) pl k (by omega) v h.symm

/-- A read through the window changes nothing of the unit (R65, R66, R69). -/
theorem busRead_same {addr size : Nat} {s t : State} (h : busRead addr size s = .next t) : SameUnit s t := by
  unfold busRead at h
  split at h
  · cases h
  · split at h
    · cases h
    · split at h
      · injection h with h; exact h ▸ sameUnit_pushRead _ s
      · exact sampleRead_same h
      · injection h with h; exact h ▸ sameUnit_pushRead _ s

theorem busWrite_effect {addr size : Nat} {v : Word} {s t : State} (h : busWrite addr size v s = .next t) :
    HostEffect s t := by
  unfold busWrite at h
  split at h
  · cases h
  · split at h
    · cases h
    · split at h
      · exact regWrite_effect h
      · exact sampleWrite_effect h
      · injection h with h; exact .same (h ▸ SameUnit.refl s)

/-- All a host operation can do when it answers a next state. -/
theorem hostOp_effect {op : HostOp} {s t : State} (h : hostOp op s = .next t) : HostEffect s t := by
  cases op with
  | rd r => injection h with h; exact .same (h ▸ sameUnit_pushRead _ s)
  | wr r v => exact regWrite_effect h
  | rs pl k => exact .same (sampleRead_same h)
  | ws pl k v => exact sampleWrite_effect h
  | memRead a n => exact .same (busRead_same h)
  | memWrite a n v => exact busWrite_effect h
  | reset => injection h with h; exact .cleared h.symm
  | wait => injection h with h; exact .same (h ▸ sameUnit_waitPoll s)
  | abortIfErr => injection h with h; exact .same (h ▸ sameUnit_abortIfErr s)
  | abortIfLensDiffer => injection h with h; exact .same (h ▸ sameUnit_abortIfLensDiffer s)
  | returnOutput n => injection h with h; exact .same (h ▸ ⟨rfl, rfl, rfl, rfl, rfl, rfl, rfl, rfl⟩)
  | convolve a b => injection h with h; exact .same (h ▸ sameUnit_convolve a b s)

/-- All a step can do when it answers a next state: a turn without effect, the engine's completion of the command in CMD, or
one operation of the host. -/
theorem step_effect {s t : State} (h : step s = .next t) :
    SameUnit s t ∨
    (s.status.busy = true ∧ ∃ i, decodeWord s.cmd = .ok i ∧ validate i s = none ∧
      t = complete (updateOf i (passTurn s)) (passTurn s)) ∨
    (∃ op rest, s.script = op :: rest ∧ hostOp op { passTurn s with script := rest } = .next t) := by
  cases ha : nextAgent s with
  | engine =>
    rw [step_engine ha] at h
    by_cases hb : s.status.busy = true
    · unfold engineTurn at h
      rw [if_pos (show (passTurn s).status.busy = true from hb)] at h
      split at h
      · rename_i i hd
        rcases exec_cases h with ⟨_, hv, ht⟩ | ⟨hb', _⟩ | ⟨hi, _⟩ | ⟨hi, _⟩
        · exact Or.inr (Or.inl ⟨hb, i, hd, by rw [← hv]; exact validate_congr rfl rfl rfl, ht⟩)
        · rw [passTurn_status, hb] at hb'; cases hb'
        · have := hi.1; rw [passTurn_status, hb] at this; cases this
        · have := hi.1; rw [passTurn_status, hb] at this; cases this
      · cases h
    · rw [engineTurn_idle (show (passTurn s).status.busy = false by simpa using hb)] at h
      injection h with h
      exact Or.inl (h ▸ sameUnit_passTurn s)
  | host =>
    rw [step_host ha] at h
    unfold hostTurn at h
    rw [passTurn_script] at h
    split at h
    · injection h with h
      exact Or.inl (h ▸ sameUnit_passTurn s)
    · rename_i op rest hs
      exact Or.inr (Or.inr ⟨op, rest, hs, h⟩)

end Sys2Proof.Machine
end

