-- ==== Sys2Proof/Laws/Window.lean ====
section
/-! SUPPORT. The laws of the host window: its sizes, and what its offsets name (R64). -/

namespace Sys2Proof.Machine

/-- The registers fit below the first plane (R64). -/
theorem planeBytes_ge (p : Params) : 32 ≤ planeBytes p := by
  rw [planeBytes, lognmax, show 32 = 2 ^ 5 from rfl]
  exact Nat.pow_le_pow_right (by omega) (by omega)

theorem windowBase_aligned (p : Params) : windowBase p % 4 = 0 := by
  have h : windowBase p = 4 * (p.windowIndex * (8 * nmax p)) := by
    rw [windowBase, windowBytes, planeBytes_eq]
    simp only [Nat.mul_left_comm]
  omega

theorem planeOfNumber_planeNumber (pl : Plane) : planeOfNumber (planeNumber pl) = pl := by cases pl <;> rfl

theorem regOfNumber_regNumber (r : Reg) : regOfNumber (regNumber r) = r := by cases r <;> rfl

theorem regNumber_le (r : Reg) : regNumber r ≤ 7 := by cases r <;> decide

theorem planeNumber_le (pl : Plane) : planeNumber pl ≤ 3 := by cases pl <;> decide

/-- The planes stand in the second to the fifth of the window's eight parts (R64). -/
theorem planeBase_bounds (p : Params) (pl : Plane) : planeBytes p ≤ planeBase p pl ∧ planeBase p pl + planeBytes p ≤ 5 * planeBytes p := by
  have h := Nat.mul_le_mul_right (planeBytes p) (planeNumber_le pl)
  rw [planeBase_step]
  omega

theorem planeBase_aligned (p : Params) (pl : Plane) : planeBase p pl % 4 = 0 := by
  have h : planeBase p pl = 4 * ((1 + planeNumber pl) * nmax p) := by
    rw [planeBase, planeBytes_eq]
    simp only [Nat.mul_left_comm]
  omega

theorem targetOf_reg (p : Params) (r : Reg) : targetOf p (4 * regNumber r) = .reg r := by
  have h := regNumber_le r
  rw [targetOf, if_pos (by omega), show 4 * regNumber r / 4 = regNumber r by omega, regOfNumber_regNumber]

/-- A register the window names stands at its own offset (R64). -/
theorem targetOf_reg_eq {p : Params} {off : Nat} {r : Reg} (ha : off % 4 = 0) (h : targetOf p off = .reg r) :
    off = 4 * regNumber r := by
  rw [targetOf] at h
  split at h
  · injection h with h
    have key : ∀ n < 8, regNumber (regOfNumber n) = n := by decide
    have hn := key (off / 4) (by omega)
    rw [h] at hn
    omega
  · split at h
    · cases h
    · split at h <;> cases h

theorem targetOf_sample {p : Params} {pl : Plane} {k : Nat} (hk : k < nmax p) :
    targetOf p (sampleAddr p pl k) = .sample pl k := by
  have h1 := planeBytes_ge p
  have h2 := planeBytes_eq p
  have h3 := planeBase_bounds p pl
  have hd : sampleAddr p pl k / planeBytes p = 1 + planeNumber pl := by
    rw [sampleAddr, planeBase, Nat.mul_comm, Nat.mul_add_div (by omega), Nat.div_eq_of_lt (by omega), Nat.add_zero]
  have hm : sampleAddr p pl k % planeBytes p = 4 * k := by
    rw [sampleAddr, planeBase, Nat.mul_comm, Nat.mul_add_mod, Nat.mod_eq_of_lt (by omega)]
  rw [targetOf, if_neg (by rw [sampleAddr]; omega), if_neg (by rw [sampleAddr]; omega), if_pos (by rw [sampleAddr]; omega),
    hd, hm, Nat.add_sub_cancel_left, planeOfNumber_planeNumber, Nat.mul_div_cancel_left k (by omega)]

/-- A sample the window names has an index of the plane (R64). -/
theorem targetOf_sample_lt {p : Params} {off : Nat} {pl : Plane} {k : Nat} (h : targetOf p off = .sample pl k) : k < nmax p := by
  have h1 := planeBytes_ge p
  have h2 := planeBytes_eq p
  have h3 := Nat.mod_lt off (y := planeBytes p) (by omega)
  rw [targetOf] at h
  split at h
  · cases h
  · split at h
    · cases h
    · split at h
      · injection h with _ h
        omega
      · cases h

theorem byteAt_isSome_of_mem {m : Memory} {c : Host.Cell} (h : c ∈ m) : (byteAt m c.1).isSome = true := by
  induction m with
  | nil => cases h
  | cons d m ih =>
    obtain ⟨b, v⟩ := d
    rw [byteAt_cons]
    split
    · rfl
    · rename_i hne
      rcases List.mem_cons.1 h with rfl | h
      · exact absurd rfl hne
      · exact ih h

theorem exists_mem_of_byteAt_isSome {m : Memory} {x : Nat} (h : (byteAt m x).isSome = true) : ∃ c ∈ m, c.1 = x := by
  induction m with
  | nil => cases h
  | cons d m ih =>
    obtain ⟨b, v⟩ := d
    rw [byteAt_cons] at h
    split at h
    · rename_i he
      exact ⟨(b, v), by simp, he.symm⟩
    · obtain ⟨c, hc, he⟩ := ih h
      exact ⟨c, by simp [hc], he⟩

/-- A write at a word's place keeps every word whole (R75). -/
theorem writeWords_whole {m : Memory} {a : Nat} {ws : List Sample} (ha : a % 4 = 0)
    (h : ∀ c ∈ m, ∀ k < 4, (byteAt m (c.1 / 4 * 4 + k)).isSome = true) :
    ∀ c ∈ writeWords m a ws, ∀ k < 4, (byteAt (writeWords m a ws) (c.1 / 4 * 4 + k)).isSome = true := by
  intro c hc k hk
  have hs := byteAt_isSome_of_mem hc
  by_cases hin : a ≤ c.1 ∧ c.1 < a + 4 * ws.length
  · obtain ⟨i, k', hi, hk', he⟩ : ∃ i k', i < ws.length ∧ k' < 4 ∧ c.1 = a + 4 * i + k' :=
      ⟨(c.1 - a) / 4, (c.1 - a) % 4, by omega, by omega, by omega⟩
    rw [he, byteAt_writeWords_inside hi hk'] at hs
    rw [show c.1 / 4 * 4 + k = a + 4 * i + k by omega, byteAt_writeWords_inside hi hk]
    simpa using hs
  · rw [byteAt_writeWords_outside (by omega)] at hs
    obtain ⟨d, hd, he⟩ := exists_mem_of_byteAt_isSome hs
    rw [byteAt_writeWords_outside (by omega), ← he]
    exact h d hd k hk

/-- A write of a buffer keeps every word whole (R75). -/
theorem writeBuf_whole {s : State} (b : Buf) (xs : List Cx)
    (h : ∀ c ∈ s.mem, ∀ k < 4, (byteAt s.mem (c.1 / 4 * 4 + k)).isSome = true) :
    ∀ c ∈ writeBuf s b xs, ∀ k < 4, (byteAt (writeBuf s b xs) (c.1 / 4 * 4 + k)).isSome = true :=
  writeWords_whole (planeBase_aligned _ _) (writeWords_whole (planeBase_aligned _ _) h)

/-- A write of a buffer of at most `NMAX` elements stays inside the planes (R82). -/
theorem writeBuf_inPlanes {s : State} {b : Buf} {xs : List Cx} (hx : xs.length ≤ nmax s.params)
    (h : ∀ c ∈ s.mem, planeBytes s.params ≤ c.1 ∧ c.1 < 5 * planeBytes s.params) :
    ∀ c ∈ writeBuf s b xs, planeBytes s.params ≤ c.1 ∧ c.1 < 5 * planeBytes s.params := by
  intro c hc
  have h2 := planeBytes_eq s.params
  have hr := planeBase_bounds s.params (rePlane b)
  have hi := planeBase_bounds s.params (imPlane b)
  rcases mem_writeWords hc with hc | hc
  · rcases mem_writeWords hc with hc | hc
    · exact h c hc
    · rw [List.length_map] at hc
      omega
  · rw [List.length_map] at hc
    omega

end Sys2Proof.Machine
end

