-- ==== Sys2Proof/Tests/Slice0.lean ====
section
/-! SUPPORT. Tests of the model on values the spec writes out (its test vectors, its encodings, its worked examples), and a
witness for the hypotheses of every obligation that has some, named `witness_<obligation>`. -/

namespace Sys2Proof.Tests

open Sys2Proof Sys2Proof.Machine

/-- A complex sample from its two patterns. -/
def pt (re im : Word) : Cx := { re := some re, im := some im }

/-- Complex samples from the patterns of the two planes. -/
def pts (re im : List Word) : List Cx := List.zipWith pt re im

/-- A unit of the default configuration after the host has written the lengths and the leading samples of both buffers. -/
def loaded (la lb : Nat) (a b : List Cx) : State :=
  let s := { State.reset with lena := BitVec.ofNat 32 la, lenb := BitVec.ofNat 32 lb }
  let s := { s with mem := writeBuf s .A a }
  { s with mem := writeBuf s .B b }

/-- The command `i` has been accepted and not yet completed. -/
def started (i : Instr) (s : State) : State := accept (encode i) s

/-- The first `n` elements of a buffer after a command in flight has completed; nothing when it has not. -/
def completed (i : Instr) (s : State) (d : Buf) (n : Nat) : List Cx :=
  match exec i (started i s) with
  | .next t => readBuf t d n
  | .fault _ => []
  | .refused _ => []

/-- STATUS and ERRINFO after the host has written `w` to CMD (R215). -/
def issued (w : Word) (s : State) : Word × Word :=
  match hostOp (.wr .cmd w) s with
  | .next t => (statusWord t.status, t.errinfo)
  | .fault _ => (0#32, 0#32)
  | .refused _ => (0#32, 0#32)

/-- A unit in the fault state, as after program P2's first command. -/
def failed : State := errorEntry .nonPowerOfTwoLength 0x1#32 (loaded 3 0 [] [])

/-- The configuration of capacity 16, where the window has reserved offsets below its planes. -/
def capacity16 : Params := { paramsDefault with capacity := 1 }

/-- The configuration without MAGPH. -/
def bare : Params := { paramsDefault with hasMagph := false }

/-! Well-formedness -/

theorem test_wellformed_refuses_stage_32 : WellFormed (.bfstg .A 32 .forward) = false := by decide

theorem test_wellformed_accepts_stage_31 : WellFormed (.bfstg .A 31 .forward) = true := by decide

/-! Decoding: words written out bit by bit from R91, fields RSV STG INV S2 S1 D OPC -/

theorem test_decode_fft : decodeWord 0b0000000000000000000_00000_0_0_0_1_0001#32 = .ok (.fft .B) := rfl

theorem test_decode_ifft : decodeWord 0b0000000000000000000_00000_0_0_0_0_0010#32 = .ok (.ifft .A) := rfl

theorem test_decode_cmul : decodeWord 0b0000000000000000000_00000_0_1_0_0_0011#32 = .ok (.cmul .A .A .B) := rfl

theorem test_decode_cmul_s1 : decodeWord 0b0000000000000000000_00000_0_0_1_0_0011#32 = .ok (.cmul .A .B .A) := rfl

theorem test_decode_bitrev : decodeWord 0b0000000000000000000_00000_0_0_0_1_0100#32 = .ok (.bitrev .B) := rfl

theorem test_decode_bfstg : decodeWord 0b0000000000000000000_00010_1_0_0_1_0101#32 = .ok (.bfstg .B 2 .inverse) := rfl

theorem test_decode_bfstg_24 : decodeWord 0b0000000000000000000_11000_0_0_0_1_0101#32 = .ok (.bfstg .B 24 .forward) := rfl

theorem test_decode_scale : decodeWord 0b0000000000000000000_00000_0_0_0_1_0110#32 = .ok (.scale .B) := rfl

theorem test_decode_magph : decodeWord 0b0000000000000000000_00000_0_0_1_0_0111#32 = .ok (.magph .A .B) := rfl

/-- The reserved words of R97 and of the validation vectors. -/
theorem test_decode_reserved :
    decodeWord 0x00000000#32 = .error .reservedOpcode ∧ decodeWord 0x00000008#32 = .error .reservedOpcode ∧
    decodeWord 0x0000000F#32 = .error .reservedOpcode ∧ decodeWord 0x00000021#32 = .error .reservedField ∧
    decodeWord 0x00000101#32 = .error .reservedField ∧ decodeWord 0x00002001#32 = .error .reservedField ∧
    decodeWord 0x80000001#32 = .error .reservedField ∧ decodeWord 0x000000C3#32 = .error .reservedField ∧
    decodeWord 0x00000145#32 = .error .reservedField ∧ decodeWord 0x00000067#32 = .error .reservedField :=
  ⟨rfl, rfl, rfl, rfl, rfl, rfl, rfl, rfl, rfl, rfl⟩

/-- Little-endian bytes (R68), and a list too short for a word. -/
theorem test_decode_bytes :
    decodeBytes [0x95#8, 0x02#8, 0x00#8, 0x00#8, 0xAA#8] = .ok (.bfstg .B 2 .inverse, [0xAA#8]) ∧
    decodeBytes [0x95#8, 0x02#8, 0x00#8] = .error .tooShort := ⟨rfl, rfl⟩

theorem test_decode_table_word : decodeTableWord 32 0x43 = some (.cmul .A .A .B) := by decide

/-! Arithmetic (V-F), twiddles (V-TW), bit reversal (V-REV), the butterfly (V-BFLY) -/

theorem test_fadd :
    fadd 0x3F800000#32 0x40000000#32 = 0x40400000#32 ∧ fadd 0x7F800000#32 0xFF800000#32 = 0x7FC00000#32 ∧
    fadd 0x00000000#32 0x80000000#32 = 0x00000000#32 ∧ fadd 0x80000000#32 0x80000000#32 = 0x80000000#32 := by decide +kernel

theorem test_fsub :
    fsub 0x80000000#32 0x80000000#32 = 0x00000000#32 ∧ fsub 0x80000000#32 0x00000000#32 = 0x80000000#32 := by decide +kernel

theorem test_fmul :
    fmul 0x00000001#32 0x3F000000#32 = 0x00000000#32 ∧ fmul 0x00000003#32 0x3F000000#32 = 0x00000002#32 ∧
    fmul 0x7F7FFFFF#32 0x40000000#32 = 0x7F800000#32 ∧ fmul 0x00000000#32 0xC0400000#32 = 0x80000000#32 := by decide +kernel

theorem test_fdiv :
    fdiv 0x00000003#32 0x40800000#32 = 0x00000001#32 ∧ fdiv 0x00000002#32 0x40800000#32 = 0x00000000#32 ∧
    fdiv 0x00000006#32 0x40800000#32 = 0x00000002#32 ∧ fdiv 0x80000000#32 0x40800000#32 = 0x80000000#32 := by decide +kernel

theorem test_fsqrt :
    fsqrt 0x41C80000#32 = 0x40A00000#32 ∧ fsqrt 0x40000000#32 = 0x3FB504F3#32 ∧ fsqrt 0x80000000#32 = 0x80000000#32 ∧
    fsqrt 0xBF800000#32 = 0x7FC00000#32 := by decide +kernel

theorem test_twiddle_block8 :
    twiddleForward 3 3 1 = (0x3F3504F3#32, 0xBF3504F3#32) ∧ twiddleForward 3 3 3 = (0xBF3504F3#32, 0xBF3504F3#32) ∧
    twiddleInverse 3 1 0 = (0x3F800000#32, 0x80000000#32) := by decide +kernel

theorem test_bit_reverse : (List.range 8).map (bitReverse 3) = [0, 4, 2, 6, 1, 5, 3, 7] := by decide

/-- V-BFLY-4, where a swapped product or a lost rounding shows. -/
theorem test_butterfly :
    bfly (pt 0x3F800000#32 0x40000000#32) (pt 0x40400000#32 0x40800000#32) (pt 0x3F3504F3#32 0x3F3504F3#32) =
      (pt 0x3E95F618#32 0x40DE6454#32, pt 0x3FDA827A#32 0xC03CC8A8#32) := by decide +kernel

/-- Rows of V-MAGPH-S that its command test does not reach. -/
theorem test_atan2 :
    atan2Rounded 0x80000000#32 0x80000000#32 = 0xC0490FDB#32 ∧ atan2Rounded 0x7F800000#32 0xFF800000#32 = 0x4016CBE4#32 ∧
    atan2Rounded 0xC0800000#32 0xC0400000#32 = 0xC00DB70D#32 := by decide +kernel

/-! The commands, each in flight and completed by the engine's step -/

/-- V-FFT-8a. -/
theorem test_fft_n8 :
    completed (.fft .A) (loaded 8 0 (pts [0x3F800000#32, 0x40000000#32, 0x40400000#32, 0x40800000#32, 0x40A00000#32, 0x40C00000#32,
      0x40E00000#32, 0x41000000#32] (List.replicate 8 0#32)) []) .A 8 =
    pts [0x42100000#32, 0xC0800000#32, 0xC0800000#32, 0xC0800000#32, 0xC0800000#32, 0xC0800000#32, 0xC0800000#32, 0xC0800000#32]
      [0x00000000#32, 0x411A827A#32, 0x40800000#32, 0x3FD413CC#32, 0x00000000#32, 0xBFD413CC#32, 0xC0800000#32, 0xC11A827A#32] := by
  decide +kernel

/-- V-FFT-4z: the signs of zero. -/
theorem test_fft_zero_signs :
    completed (.fft .B) (loaded 0 4 [] (pts (List.replicate 4 0x80000000#32) (List.replicate 4 0x80000000#32))) .B 4 =
    pts [0#32, 0#32, 0#32, 0x80000000#32] [0#32, 0#32, 0x80000000#32, 0#32] := by decide +kernel

/-- V-IFFT-2. -/
theorem test_ifft_n2 :
    completed (.ifft .A) (loaded 2 0 (pts [0x3F800000#32, 0x40000000#32] [0x40400000#32, 0x40800000#32]) []) .A 2 =
    pts [0x3FC00000#32, 0xBF000000#32] [0x40600000#32, 0xBF000000#32] := by decide +kernel

/-- V-IFFT-4b. -/
theorem test_ifft_n4 :
    completed (.ifft .A) (loaded 4 0 (pts [0#32, 0x3F800000#32, 0#32, 0#32] (List.replicate 4 0#32)) []) .A 4 =
    pts [0x3E800000#32, 0#32, 0xBE800000#32, 0#32] [0#32, 0x3E800000#32, 0#32, 0xBE800000#32] := by decide +kernel

/-- V-BITREV-8p: patterns are moved, not computed. -/
theorem test_bitrev_n8 :
    completed (.bitrev .A) (loaded 8 0 (pts [0x3F800000#32, 0x7FA00001#32, 0x80000000#32, 0xFFC12345#32, 0x00000001#32, 0x7F800000#32,
        0xFF800000#32, 0x40000000#32]
      [0x80000000#32, 0#32, 1#32, 2#32, 3#32, 4#32, 5#32, 6#32]) []) .A 8 =
    pts [0x3F800000#32, 0x00000001#32, 0x80000000#32, 0xFF800000#32, 0x7FA00001#32, 0x7F800000#32, 0xFFC12345#32, 0x40000000#32]
      [0x80000000#32, 3#32, 1#32, 5#32, 0#32, 4#32, 2#32, 6#32] := by decide +kernel

/-- V-BFSTG-4a. -/
theorem test_bfstg_forward :
    completed (.bfstg .A 2 .forward) (loaded 4 0 (pts [0x3F800000#32, 0x40000000#32, 0x40400000#32, 0x40800000#32]
      [0x40A00000#32, 0x40C00000#32, 0x40E00000#32, 0x41000000#32]) []) .A 4 =
    pts [0x40800000#32, 0x41200000#32, 0xC0000000#32, 0xC0C00000#32] [0x41400000#32, 0x40000000#32, 0xC0000000#32, 0x41200000#32] := by
  decide +kernel

/-- V-BFSTG-4b. -/
theorem test_bfstg_inverse :
    completed (.bfstg .B 2 .inverse) (loaded 0 4 [] (pts [0x3F800000#32, 0x40000000#32, 0x40400000#32, 0x40800000#32]
      [0x40A00000#32, 0x40C00000#32, 0x40E00000#32, 0x41000000#32])) .B 4 =
    pts [0x40800000#32, 0xC0C00000#32, 0xC0000000#32, 0x41200000#32] [0x41400000#32, 0x41200000#32, 0xC0000000#32, 0x40000000#32] := by
  decide +kernel

/-- V-SCALE-4b: ties, subnormals, infinity. -/
theorem test_scale_n4 :
    completed (.scale .A) (loaded 4 0 (pts [0x00000001#32, 0x00000002#32, 0x00000003#32, 0x00000006#32]
      [0x00800000#32, 0x7F7FFFFF#32, 0x80000000#32, 0x7F800000#32]) []) .A 4 =
    pts [0#32, 0#32, 1#32, 2#32] [0x00200000#32, 0x7E7FFFFF#32, 0x80000000#32, 0x7F800000#32] := by decide +kernel

/-- V-CMULV-3: the destination is also a source, and its elements above the length stay. -/
theorem test_cmul_n3 :
    completed (.cmul .B .A .B) (loaded 3 3
      (pts [0x3F800000#32, 0#32, 0x40400000#32] [0x40000000#32, 0xBF800000#32, 0#32])
      (pts [0x40000000#32, 0x3F000000#32, 0xBF800000#32, 0x11111111#32] [0#32, 0x3F000000#32, 0x3F800000#32, 0x22222222#32])) .B 4 =
    pts [0x40000000#32, 0x3F000000#32, 0xC0400000#32, 0x11111111#32] [0x40800000#32, 0xBF000000#32, 0x40400000#32, 0x22222222#32] := by
  decide +kernel

/-- V-CMULV-SQR. -/
theorem test_sqr_n4 :
    completed (sqr .A .A) (loaded 4 0 (pts [0x3F800000#32, 0#32, 0x40400000#32, 0xBF000000#32]
      [0x40000000#32, 0xBF800000#32, 0#32, 0x3F000000#32]) []) .A 4 =
    pts [0xC0400000#32, 0xBF800000#32, 0x41100000#32, 0#32] [0x40800000#32, 0x80000000#32, 0#32, 0xBF000000#32] := by decide +kernel

/-- V-MAGPH-4. -/
theorem test_magph_n4 :
    completed (.magph .B .A) (loaded 4 4 (pts [0x40400000#32, 0xBF800000#32, 0#32, 0x3F800000#32]
      [0x40800000#32, 0#32, 0xBF800000#32, 0x3F800000#32]) []) .B 4 =
    pts [0x40A00000#32, 0x3F800000#32, 0x3F800000#32, 0x3FB504F3#32] [0x3F6D6338#32, 0x40490FDB#32, 0xBFC90FDB#32, 0x3F490FDB#32] := by
  decide +kernel

/-- An operand with an unspecified word gives unspecified words only where it is used (R44). -/
theorem test_unspecified_element :
    completed (.scale .A) (loaded 2 0 [pt 0x40000000#32 0x40000000#32] []) .A 2 =
      [pt 0x3F800000#32 0x3F800000#32, { re := none, im := none }] := by decide +kernel

/-! Issue and validation (section 8 of the vectors, program P2) -/

theorem test_issue_accepted : issued 0x00000001#32 (loaded 8 0 [] []) = (0x1#32, 0#32) := by decide +kernel

theorem test_issue_not_power_of_two : issued 0x00000001#32 (loaded 24 0 [] []) = (0x104#32, 0x1#32) := by decide +kernel

theorem test_issue_mismatch_before_capacity : issued 0x00000043#32 (loaded 16 9 [] []) = (0x204#32, 0x43#32) := by decide +kernel

theorem test_issue_illegal : issued 0x00000101#32 (loaded 8 8 [] []) = (0x404#32, 0x101#32) := by decide +kernel

theorem test_issue_too_large : issued 0x00000405#32 (loaded 16 0 [] []) = (0x504#32, 0x405#32) := by decide +kernel

theorem test_issue_stage : issued 0x00001F85#32 (loaded 2 0 [] []) = (0x604#32, 0x1F85#32) := by decide +kernel

theorem test_issue_no_magph : issued 0x00000007#32 { loaded 8 8 [] [] with params := bare } = (0x404#32, 0x7#32) := by decide +kernel

theorem test_issue_other_length_ignored : issued 0x00000073#32 (loaded 9 4 [] []) = (0x1#32, 0#32) := by decide +kernel

/-- P2: a write to CMD in the fault state is dropped and sets OVR. -/
theorem test_issue_in_fault_state : issued 0x00000001#32 failed = (0x10C#32, 0x1#32) := by decide +kernel

/-! Registers, reset, the driver's sizing (X1) -/

theorem test_cap_default : regValue .cap State.reset = 0x103#32 := by decide

/-- R28, R37, R38, R69: LENA and LENB are told apart, and a read leaves all else as it is. -/
theorem test_register_reads :
    hostOp (.rd .lena) (loaded 3 5 [] []) = .next { loaded 3 5 [] [] with reads := [3#32] } ∧
    hostOp (.rd .lenb) (loaded 3 5 [] []) = .next { loaded 3 5 [] [] with reads := [5#32] } := ⟨rfl, rfl⟩

theorem test_reset_memory_wf : State.reset.mem.wf := by decide

theorem test_loaded_memory_wf : (loaded 2 1 (pts [1#32, 2#32] [3#32, 4#32]) (pts [5#32] [6#32])).mem.wf := by decide +kernel

theorem test_next_pow2 :
    [2, 3, 4, 5, 6, 7, 8, 9, 15, 16, 17, 31, 32, 33, 1000, 1024, 1025].map nextPow2 =
      [2, 4, 4, 8, 8, 8, 8, 16, 16, 16, 32, 32, 32, 64, 1024, 1024, 2048] := by decide +kernel

/-- P6: the soft reset of a command in flight leaves its destination unspecified and the other buffer as it was. -/
theorem test_soft_reset_in_flight :
    let s := softReset (started (.cmul .B .A .B) (loaded 2 2 (pts [0x3F800000#32, 0x40000000#32] [0#32, 0#32])
      (pts [0x40A00000#32, 0x40C00000#32, 0x40E00000#32] [0#32, 0#32, 0#32])))
    readBuf s .A 2 = pts [0x3F800000#32, 0x40000000#32] [0#32, 0#32] ∧
      readBuf s .B 3 = [{ re := none, im := none }, { re := none, im := none }, pt 0x40E00000#32 0#32] ∧
      statusWord s.status = 0#32 := by decide +kernel

/-- A word placed for the next step is issued by it. -/
theorem test_step_with_fetch_word :
    step (State.reset.withFetchWord 32 0x43) = exec (.cmul .A .A .B) State.reset := rfl

/-! Witnesses: states and operands that meet the hypotheses of an obligation, one for each clause that has its own, at the
ends of the ranges. -/

theorem not_pow2_zero : ∀ k, (0 : Nat) ≠ 2 ^ k := fun k h => by have := Nat.two_pow_pos k; omega

theorem not_pow2_three : ∀ k, (3 : Nat) ≠ 2 ^ k
  | 0 => by decide
  | k + 1 => fun h => by rw [Nat.pow_succ] at h; omega

/-- A unit with a command in flight over the whole of both buffers. -/
def busyFft : State := started (.fft .A) (loaded 8 8 (pts [1#32, 2#32] [3#32, 4#32]) [])

theorem flagsOk_idle : FlagsOk statusReset := ⟨by decide, by decide, by decide, by decide, by decide⟩

theorem inv_reset : Inv State.reset :=
  ⟨flagsOk_idle, fun _ => rfl, Or.inl rfl, fun h => (by cases h), by decide, by decide, by decide⟩

theorem inv_loaded : Inv (loaded 8 8 (pts [1#32, 2#32] [3#32, 4#32]) []) :=
  ⟨flagsOk_idle, fun _ => rfl, Or.inl rfl, fun h => (by cases h), by decide +kernel, by decide +kernel, by decide +kernel⟩

theorem inv_busy : Inv busyFft :=
  ⟨⟨by decide, by decide, by decide, by decide, by decide⟩, fun _ => rfl, Or.inr ⟨.fft .A, rfl⟩, fun _ => ⟨.fft .A, rfl, by decide⟩,
    by decide +kernel, by decide +kernel, by decide +kernel⟩

theorem witness_DecodeOfEncode : WellFormed (.bfstg .B 31 .inverse) = true := by decide

theorem witness_EncodeOfDecode : decodeWord 0x00001F95#32 = .ok (.bfstg .B 31 .inverse) := rfl

theorem witness_StepRunsDecodedCommand_host :
    let s := { State.reset with script := [.wr .cmd 0x43#32] }
    nextAgent s = .host ∧ s.script = .wr .cmd 0x43#32 :: [] ∧ Idle s ∧ decodeWord 0x43#32 = .ok (.cmul .A .A .B) :=
  ⟨rfl, rfl, ⟨rfl, rfl⟩, rfl⟩

theorem witness_StepRunsDecodedCommand_engine :
    nextAgent busyFft = .engine ∧ busyFft.status.busy = true ∧ decodeWord busyFft.cmd = .ok (.fft .A) := ⟨rfl, rfl, rfl⟩

theorem witness_StepRunsDecodedCommand_placed : decodeWord 0x00000011#32 = .ok (.fft .B) := rfl

theorem witness_IssueOutcome_locked : busyFft.status.busy = true ∧ failed.status.err = true := ⟨rfl, rfl⟩

theorem witness_IssueOutcome_error :
    Idle (loaded 3 0 [] []) ∧ validateWord 0x1#32 (loaded 3 0 [] []) = some .nonPowerOfTwoLength := ⟨⟨rfl, rfl⟩, by decide⟩

theorem witness_IssueOutcome_accepted : Idle (loaded 8 0 [] []) ∧ validateWord 0x1#32 (loaded 8 0 [] []) = none :=
  ⟨⟨rfl, rfl⟩, by decide⟩

theorem witness_IssueOutcome_same_lengths :
    (loaded 8 8 [] []).params = busyFft.params ∧ (loaded 8 8 [] []).lena = busyFft.lena ∧ (loaded 8 8 [] []).lenb = busyFft.lenb :=
  ⟨rfl, rfl, rfl⟩

theorem witness_ErrorEntryEffect :
    Idle (loaded 16 0 [] []) ∧ validateWord 0x1#32 (loaded 16 0 [] []) = some .lengthTooLarge := ⟨⟨rfl, rfl⟩, by decide⟩

theorem witness_AcceptEffect :
    Idle (loaded 8 0 [] []) ∧ validateWord 0x1#32 (loaded 8 0 [] []) = none ∧ 7 < nmax (loaded 8 0 [] []).params :=
  ⟨⟨rfl, rfl⟩, by decide, by decide⟩

theorem witness_CompletionEffect_busy : Inv busyFft ∧ busyFft.status.busy = true := ⟨inv_busy, rfl⟩

theorem witness_CompletionEffect_idle : Inv State.reset ∧ State.reset.status.busy = false := ⟨inv_reset, rfl⟩

theorem witness_WaitReturnsOutcome_success : Idle (loaded 8 0 [] []) ∧ validateWord 0x1#32 (loaded 8 0 [] []) = none :=
  ⟨⟨rfl, rfl⟩, by decide⟩

theorem witness_WaitReturnsOutcome_failure : Idle State.reset ∧ validateWord 0x0#32 State.reset = some .illegalCommand :=
  ⟨⟨rfl, rfl⟩, by decide⟩

theorem witness_NonPowerOfTwoError_three :
    isTransform (.scale .B) = true ∧ Idle (loaded 0 3 [] []) ∧ ∀ k, operandLen (.scale .B) (loaded 0 3 [] []) ≠ 2 ^ k :=
  ⟨rfl, ⟨rfl, rfl⟩, not_pow2_three⟩

theorem witness_NonPowerOfTwoError_zero :
    isTransform (.fft .A) = true ∧ Idle State.reset ∧ ∀ k, operandLen (.fft .A) State.reset ≠ 2 ^ k :=
  ⟨rfl, ⟨rfl, rfl⟩, not_pow2_zero⟩

theorem witness_LengthTooLargeError_transform :
    let s := loaded 16 0 [] []
    Idle s ∧ (isTransform (.bfstg .A 4 .forward) = true → ∃ k, operandLen (.bfstg .A 4 .forward) s = 2 ^ k) ∧
      nmax s.params < operandLen (.bfstg .A 4 .forward) s :=
  ⟨⟨rfl, rfl⟩, fun _ => ⟨4, by decide⟩, by decide⟩

theorem witness_LengthTooLargeError_pair :
    let s := loaded 9 9 [] []
    Idle s ∧ namesBoth (.magph .B .A) = true ∧ s.lena = s.lenb ∧ s.params.hasMagph = true ∧
      nmax s.params < operandLen (.magph .B .A) s :=
  ⟨⟨rfl, rfl⟩, rfl, rfl, rfl, by decide⟩

theorem witness_LengthTooLargeError_legal : Idle (loaded 8 8 [] []) ∧ validate (.cmul .A .A .B) (loaded 8 8 [] []) = none :=
  ⟨⟨rfl, rfl⟩, by decide⟩

theorem witness_StageRangeError_zero : Idle (loaded 8 0 [] []) ∧ len (loaded 8 0 [] []) .A = 2 ^ 3 ∧ 2 ^ 3 ≤ nmax (loaded 8 0 [] []).params :=
  ⟨⟨rfl, rfl⟩, by decide, by decide⟩

theorem witness_StageRangeError_above : Idle (loaded 1 0 [] []) ∧ len (loaded 1 0 [] []) .A = 2 ^ 0 ∧ 2 ^ 0 ≤ nmax (loaded 1 0 [] []).params ∧ 0 < 1 :=
  ⟨⟨rfl, rfl⟩, by decide, by decide, by decide⟩

theorem witness_IllegalCommandError_word : Idle State.reset ∧ decodeWord 0x80000001#32 = .error .reservedField := ⟨⟨rfl, rfl⟩, rfl⟩

theorem witness_IllegalCommandError_magph :
    Idle (resetOf bare) ∧ (resetOf bare).params.hasMagph = false ∧ decodeWord 0x00000007#32 = .ok (.magph .A .A) :=
  ⟨⟨rfl, rfl⟩, rfl, rfl⟩

theorem witness_LengthMismatchError_cmul : Idle (loaded 8 4 [] []) ∧ namesBoth (.cmul .B .A .A) = true ∧ (loaded 8 4 [] []).lena ≠ (loaded 8 4 [] []).lenb :=
  ⟨⟨rfl, rfl⟩, rfl, by decide⟩

theorem witness_LengthMismatchError_magph :
    Idle (loaded 8 4 [] []) ∧ namesBoth (.magph .B .A) = true ∧ (loaded 8 4 [] []).params.hasMagph = true ∧
      (loaded 8 4 [] []).lena ≠ (loaded 8 4 [] []).lenb :=
  ⟨⟨rfl, rfl⟩, rfl, rfl, by decide⟩

theorem witness_MagphPresence_absent : (resetOf bare).params.hasMagph = false ∧ opcAt 0xFFFFFFF7#32 = 7 ∧ opcAt 0x00000007#32 = 7 := by decide

theorem witness_MagphPresence_present : State.reset.params.hasMagph = true := by decide

/-- The fault state with a soft reset as the host's next transaction. -/
def failedThenSrst : State := { failed with script := [srstOp] }

theorem flagsOk_failed : FlagsOk failed.status := ⟨by decide, by decide, by decide, by decide, by decide⟩

theorem witness_FaultStateKeepsFirstError_fault :
    FlagsOk failed.status ∧ failed.status.err = true ∧ step failed = .next failed := ⟨flagsOk_failed, rfl, rfl⟩

theorem witness_FaultStateKeepsFirstError_reset :
    FlagsOk failedThenSrst.status ∧ failedThenSrst.status.err = true ∧ step failedThenSrst = .next (softReset failed) :=
  ⟨flagsOk_failed, rfl, rfl⟩

theorem witness_FaultStateKeepsFirstError_busy :
    FlagsOk busyFft.status ∧ busyFft.status.busy = true ∧ step busyFft = .next (complete (updateOf (.fft .A) busyFft) busyFft) :=
  ⟨inv_busy.flags, rfl, rfl⟩

theorem witness_FaultStateExits_soft :
    FlagsOk failedThenSrst.status ∧ failedThenSrst.status.err = true ∧ step failedThenSrst = .next (softReset failed) ∧
      (softReset failed).status.err = false := ⟨flagsOk_failed, rfl, rfl, rfl⟩

/-- The same write named by its address in the window. -/
theorem witness_FaultStateExits_bus :
    let s := { failed with script := [.memWrite 0x08 4 0x7#32] }
    FlagsOk s.status ∧ s.status.err = true ∧ step s = .next (softReset failed) ∧ (softReset failed).status.err = false ∧
      windowBase s.params + 0x08 = 0x08 := ⟨flagsOk_failed, rfl, rfl, rfl, by decide⟩

theorem witness_FaultStateExits_hard :
    let s := { failed with script := [.reset] }
    FlagsOk s.status ∧ s.status.err = true ∧ step s = .next (hardReset failed) ∧ (hardReset failed).status.err = false :=
  ⟨flagsOk_failed, rfl, rfl, rfl⟩

theorem witness_FaultStateExits_word : FlagsOk failed.status ∧ failed.status.err = true ∧ (0xFFFFFFFF#32 : Word).getLsbD 0 = true :=
  ⟨flagsOk_failed, rfl, by decide⟩

theorem witness_SoftResetEffect_idle : (0x00000001#32 : Word).getLsbD 0 = true ∧ (loaded 8 8 [] []).status.busy = false := by decide

theorem witness_SoftResetEffect_busy :
    (0x00000007#32 : Word).getLsbD 0 = true ∧ busyFft.status.busy = true ∧ decodeWord busyFft.cmd = .ok (.fft .A) ∧
      0 < nmax busyFft.params ∧ 7 < nmax busyFft.params := ⟨by decide, rfl, rfl, by decide, by decide⟩

theorem witness_AfterResetBehaviour_transform : isTransform (.bfstg .A 0 .forward) = true := by decide

theorem witness_AfterResetBehaviour_pair :
    WellFormed (.magph .A .B) = true ∧ isTransform (.magph .A .B) = false ∧ paramsDefault.hasMagph = true := by decide

theorem witness_InvKeptByStep_busy : Inv busyFft ∧ step busyFft = .next (complete (updateOf (.fft .A) busyFft) busyFft) := ⟨inv_busy, rfl⟩

theorem witness_InvKeptByStep_idle : Inv State.reset ∧ step State.reset = .next State.reset := ⟨inv_reset, rfl⟩

/-- A reachable state in which an error has been taken. -/
theorem witness_FlagInvariants :
    ∃ s, Reachable s ∧ s.status.err = true := by
  have h := Reachable.start paramsDefault [] [.wr .cmd 0#32]
  exact ⟨errorEntry .illegalCommand 0#32 State.reset, .next h rfl, rfl⟩

theorem witness_NoFaultUnderInv : Inv busyFft ∧ busyFft.status.busy = true := ⟨inv_busy, rfl⟩

theorem witness_RefusalsAreBadAccesses :
    (let s := { State.reset with script := [.memRead 256 4] }
     step s = .refused .outsideWindow ∧ BadAccess s.params (.memRead 256 4) .outsideWindow) ∧
    (let s := { State.reset with script := [.memWrite 254 4 0#32] }
     step s = .refused .notAnAlignedWord ∧ BadAccess s.params (.memWrite 254 4 0#32) .notAnAlignedWord) ∧
    (let s := { State.reset with script := [.memRead 252 2] }
     step s = .refused .notAnAlignedWord ∧ BadAccess s.params (.memRead 252 2) .notAnAlignedWord) ∧
    (let s := { State.reset with script := [.rs .bIm 8] }
     step s = .refused .noSuchSample ∧ BadAccess s.params (.rs .bIm 8) .noSuchSample) :=
  ⟨⟨rfl, .inl ⟨256, 4, .inl rfl, .inl ⟨rfl, by decide⟩⟩⟩,
   ⟨rfl, .inl ⟨254, 4, .inr ⟨_, rfl⟩, .inr (by decide)⟩⟩,
   ⟨rfl, .inl ⟨252, 2, .inl rfl, .inr (by decide)⟩⟩,
   ⟨rfl, .inr ⟨.bIm, 8, .inl rfl, rfl, by decide⟩⟩⟩

/-- The hypotheses of the results of FFT, IFFT, BITREV and SCALE, at the capacity. -/
theorem witness_transform_results : busyFft.status.busy = true ∧ len busyFft .A = 2 ^ 3 ∧ 2 ^ 3 ≤ nmax busyFft.params := by decide

/-- The same at the length 1. -/
theorem witness_transform_results_length_one :
    let s := started (.fft .B) (loaded 0 1 [] [])
    s.status.busy = true ∧ len s .B = 2 ^ 0 ∧ 2 ^ 0 ≤ nmax s.params := by decide

theorem witness_BitrevResult : busyFft.status.busy = true ∧ len busyFft .A = 2 ^ 3 ∧ 2 ^ 3 ≤ nmax busyFft.params ∧ 7 < 2 ^ 3 := by decide

theorem witness_StageResult_first :
    busyFft.status.busy = true ∧ len busyFft .A = 2 ^ 3 ∧ 2 ^ 3 ≤ nmax busyFft.params ∧ 1 ≤ 1 ∧ 1 ≤ 3 ∧ 3 < 2 ^ (3 - 1) ∧
      0 < 2 ^ (1 - 1) := by decide

theorem witness_StageResult_last :
    busyFft.status.busy = true ∧ len busyFft .B = 2 ^ 3 ∧ 2 ^ 3 ≤ nmax busyFft.params ∧ 1 ≤ 3 ∧ 3 ≤ 3 ∧ 0 < 2 ^ (3 - 3) ∧
      3 < 2 ^ (3 - 1) := by decide

theorem witness_ScaleResult : busyFft.status.busy = true ∧ len busyFft .B = 2 ^ 3 ∧ 2 ^ 3 ≤ nmax busyFft.params ∧ 7 < 2 ^ 3 := by decide

theorem witness_FftResult : busyFft.status.busy = true ∧ len busyFft .A = 2 ^ 3 ∧ 2 ^ 3 ≤ nmax busyFft.params := by decide

theorem witness_IfftResult : busyFft.status.busy = true ∧ len busyFft .B = 2 ^ 3 ∧ 2 ^ 3 ≤ nmax busyFft.params := by decide

theorem witness_CmulResult :
    busyFft.status.busy = true ∧ busyFft.lena = busyFft.lenb ∧ len busyFft .A ≤ nmax busyFft.params ∧ 7 < len busyFft .A := by decide

theorem witness_CmulResult_one_buffer :
    let s := started (.cmul .B .B .B) (loaded 9 3 [] [])
    s.status.busy = true ∧ ¬(Buf.B ≠ Buf.B ∨ Buf.B ≠ Buf.B) ∧ len s .B ≤ nmax s.params ∧ 2 < len s .B := by decide

theorem witness_CmulResult_length_zero :
    let s := started (.cmul .A .A .B) State.reset
    s.status.busy = true ∧ s.lena = s.lenb ∧ len s .A ≤ nmax s.params := by decide

theorem witness_MagphResult :
    busyFft.status.busy = true ∧ busyFft.params.hasMagph = true ∧ busyFft.lena = busyFft.lenb ∧
      len busyFft .A ≤ nmax busyFft.params ∧ 7 < len busyFft .A := by decide

theorem witness_MagphResult_in_place :
    let s := started (.magph .A .A) (loaded 3 0 [] [])
    s.status.busy = true ∧ s.params.hasMagph = true ∧ ¬(Buf.A ≠ Buf.A) ∧ len s .A ≤ nmax s.params := by decide

theorem witness_CommandFrame_busy :
    busyFft.status.busy = true ∧ exec (.fft .A) busyFft = .next (complete (updateOf (.fft .A) busyFft) busyFft) ∧
      ¬(planeBase busyFft.params .aRe ≤ 0x60 ∧ 0x60 < planeBase busyFft.params .aRe + 4 * operandLen (.fft .A) busyFft) ∧
      ¬(planeBase busyFft.params .aIm ≤ 0x60 ∧ 0x60 < planeBase busyFft.params .aIm + 4 * operandLen (.fft .A) busyFft) :=
  ⟨rfl, rfl, by decide, by decide⟩

theorem witness_CommandFrame_fault : failed.status.busy = false ∧ failed.status.err = true ∧ exec (.fft .A) failed = .next (dropWrite failed) :=
  ⟨rfl, rfl, rfl⟩

theorem witness_CommandFrame_idle :
    Idle (loaded 8 8 [] []) ∧ exec (.fft .A) (loaded 8 8 [] []) = .next (started (.fft .A) (loaded 8 8 [] [])) := ⟨⟨rfl, rfl⟩, rfl⟩

/-- Two states that differ in the buffer a command does not read, and above the operand length of the one it reads. -/
theorem witness_ResultDependsOnOperandsOnly :
    let s := started (.fft .A) (loaded 1 8 (pts [1#32, 2#32] [3#32, 4#32]) [])
    let s' := started (.fft .A) (loaded 1 8 (pts [1#32, 5#32] [3#32, 6#32]) (pts [7#32] [8#32]))
    s.status.busy = true ∧ s'.status.busy = true ∧ validate (.fft .A) s = none ∧ s'.params = s.params ∧ s'.lena = s.lena ∧
      s'.lenb = s.lenb ∧ (∀ b ∈ sourcesOf (.fft .A), SameBelow s s' b (operandLen (.fft .A) s)) ∧ s.mem ≠ s'.mem := by
  refine ⟨rfl, rfl, by decide, rfl, rfl, rfl, ?_, by decide +kernel⟩
  intro b hb i hi
  obtain rfl : b = .A := by simpa [sourcesOf] using hb
  obtain rfl : i = 0 := by have : i < 1 := hi; omega
  decide +kernel

theorem witness_PairsPartitionIndices : (1 ≤ 1 ∧ 1 ≤ 1) ∧ (1 ≤ 3 ∧ 3 ≤ 3) := by decide

theorem witness_StageOrderFree :
    1 ≤ 2 ∧ 2 ≤ 2 ∧ (pts [1#32, 2#32, 3#32, 4#32] [5#32, 6#32, 7#32, 8#32]).length = 2 ^ 2 ∧
      (stagePairs (2 ^ 2) (2 ^ (2 - 1))).reverse.Perm (stagePairs (2 ^ 2) (2 ^ (2 - 1))) ∧
      (stagePairs (2 ^ 2) (2 ^ (2 - 1))).reverse ≠ stagePairs (2 ^ 2) (2 ^ (2 - 1)) :=
  ⟨by decide, by decide, rfl, List.reverse_perm _, by decide⟩

theorem witness_SwapOrderFree :
    (pts [1#32, 2#32] [3#32, 4#32]).length = 2 ^ 1 ∧ (List.range (2 ^ 1)).reverse.Perm (List.range (2 ^ 1)) := ⟨rfl, List.reverse_perm _⟩

theorem witness_CompositionLaw :
    let s := loaded 8 8 (pts [1#32, 2#32] [3#32, 4#32]) []
    Inv s ∧ Idle s ∧ len s .A = 2 ^ 3 ∧ 2 ^ 3 ≤ nmax s.params := ⟨inv_loaded, ⟨rfl, rfl⟩, by decide, by decide⟩

theorem witness_CompositionLaw_length_one :
    let s := { State.reset with lena := 1#32 }
    Inv s ∧ Idle s ∧ len s .A = 2 ^ 0 ∧ 2 ^ 0 ≤ nmax s.params :=
  ⟨⟨flagsOk_idle, fun _ => rfl, Or.inl rfl, fun h => (by cases h), by decide, by decide, by decide⟩, ⟨rfl, rfl⟩, by decide, by decide⟩

/-- What a host may try while a command runs: every kind of write, and the interrupt enables. -/
theorem witness_OwnershipWhileBusy :
    let ops : List HostOp := [.ws .aRe 0 5#32, .wr .lena 1#32, .wr .cmd 0x11#32, .memWrite 0x08 4 6#32, .rs .aRe 1, .wr .status 0xF#32]
    busyFft.status.busy = true ∧ (∀ op ∈ ops, keepsCommand busyFft.params op = true) ∧
      (∃ t, runHost ops busyFft = .next t) ∧ decodeWord busyFft.cmd = .ok (.fft .A) ∧ validate (.fft .A) busyFft = none :=
  ⟨rfl, by decide, ⟨_, rfl⟩, rfl, by decide⟩

theorem witness_DroppedWrites_locked : (busyFft.status.busy = true ∧ 7 < nmax busyFft.params) ∧ (failed.status.err = true ∧ 7 < nmax failed.params) := by
  decide

theorem witness_DroppedWrites_idle : Idle State.reset ∧ Idle (loaded 8 8 [] []) := ⟨⟨rfl, rfl⟩, ⟨rfl, rfl⟩⟩

theorem witness_DroppedWrites_control : (0x6#32 : Word).getLsbD 0 = false ∧ (0x7#32 : Word).getLsbD 0 = true := by decide

theorem witness_SampleWriteEffect_idle :
    7 < nmax State.reset.params ∧ Idle State.reset ∧ 6 < nmax State.reset.params ∧ Plane.bIm ≠ Plane.aRe ∧
      sampleAddr State.reset.params .aRe 7 + 4 ≤ sampleAddr State.reset.params .aIm 0 := ⟨by decide, ⟨rfl, rfl⟩, by decide, by decide, by decide⟩

theorem witness_SampleWriteEffect_locked : 0 < nmax busyFft.params ∧ ¬Idle busyFft := ⟨by decide, fun h => by cases h.1⟩

theorem witness_SampleReadEffect_stored :
    let s := loaded 8 8 (pts [1#32, 2#32] [3#32, 4#32]) []
    1 < nmax s.params ∧ s.status.busy = false ∧ sampleAt s .aIm 1 = some 4#32 := by decide +kernel

theorem witness_SampleReadEffect_free :
    (1 < nmax busyFft.params ∧ busyFft.status.busy = true) ∧ (7 < nmax State.reset.params ∧ sampleAt State.reset .bIm 7 = none) := by
  decide +kernel

theorem witness_BusNamesTransactions : 7 < nmax State.reset.params := by decide

theorem witness_ReservedOffsets :
    (0x20 % 4 = 0 ∧ 0x20 ≤ 0x20 ∧ 0x20 < planeBytes capacity16) ∧ (0x3C % 4 = 0 ∧ 0x20 ≤ 0x3C ∧ 0x3C < planeBytes capacity16) ∧
    (0xA0 % 4 = 0 ∧ 5 * planeBytes paramsDefault ≤ 0xA0 ∧ 0xA0 < 8 * planeBytes paramsDefault) ∧
    (0xFC % 4 = 0 ∧ 5 * planeBytes paramsDefault ≤ 0xFC ∧ 0xFC < 8 * planeBytes paramsDefault) := by decide

theorem witness_CtrlRegister : (0xFFFFFFFF#32 : Word).getLsbD 0 = true ∧ (0xFFFFFFFE#32 : Word).getLsbD 0 = false := by decide

/-- A word that clears DONE, a command accepted in the idle state, and words that set the enables or reset. -/
theorem witness_InterruptLevel :
    (0x2#32 : Word).getLsbD 1 = true ∧ (Idle (loaded 8 0 [] []) ∧ validateWord 0x1#32 (loaded 8 0 [] []) = none) ∧
      (0x6#32 : Word).getLsbD 0 = false ∧ (0x1#32 : Word).getLsbD 0 = true := ⟨by decide, ⟨⟨rfl, rfl⟩, by decide⟩, by decide, by decide⟩

theorem witness_NextPow2Least : 1 ≤ 1 ∧ 5 ≤ 2 ^ 3 ∧ (∃ k, 8 = 2 ^ k) := ⟨by decide, by decide, 3, by decide⟩

theorem witness_ConvolveEntry :
    let a : List Word := [1#32, 2#32, 3#32, 4#32]
    a ≠ [] ∧ nextPow2 (a.length + a.length) ≤ nmax State.reset.params ∧
      nmax State.reset.params < nextPow2 (a.length + (5#32 :: a).length) := by decide

theorem witness_ConvolveEntry_empty : ([] : List Word) = [] ∨ [1#32] = ([] : List Word) := .inl rfl

/-- STATUS values with ERR clear and with ERR set, equal and unequal lengths, and the operations of a call. -/
theorem witness_ConvolveEntry_aborts :
    ({ State.reset with reads := [0x2#32] }.reads = 0x2#32 :: [] ∧ (0x2#32 : Word).getLsbD 2 = false) ∧
    ({ State.reset with reads := [0x504#32] }.reads = 0x504#32 :: [] ∧ (0x504#32 : Word).getLsbD 2 = true) ∧
    (let s := { State.reset with reads := [8#32, 8#32] }
     s.reads = 8#32 :: 8#32 :: [] ∧ (8#32 : Word) = 8#32) ∧
    (let s := { State.reset with reads := [8#32, 4#32] }
     s.reads = 8#32 :: 4#32 :: [] ∧ (4#32 : Word) ≠ 8#32) ∧
    (∀ op ∈ [HostOp.wait, .abortIfErr, .rs .aRe 0], ∀ m, op ≠ .returnOutput m) := by
  refine ⟨by decide, by decide, by decide, by decide, ?_⟩
  intro op h m
  simp only [List.mem_cons, List.not_mem_nil, or_false] at h
  rcases h with rfl | rfl | rfl <;> simp

theorem witness_ConvolveCommandsAccepted :
    (let s := loaded 8 8 [] []
     s.lena = BitVec.ofNat 32 (2 ^ 3) ∧ s.lenb = BitVec.ofNat 32 (2 ^ 3) ∧ 2 ^ 3 ≤ nmax s.params) ∧
    (let s := loaded 1 1 [] []
     s.lena = BitVec.ofNat 32 (2 ^ 0) ∧ s.lenb = BitVec.ofNat 32 (2 ^ 0) ∧ 2 ^ 0 ≤ nmax s.params) := by decide

theorem witness_NanCanonical :
    isNaN 0x7FA00001#32 = true ∧ isNaN 0xFFC12345#32 = true ∧
    (isInf 0x7F800000#32 = true ∧ isInf 0xFF800000#32 = true ∧ signBit 0x7F800000#32 ≠ signBit 0xFF800000#32) ∧
    (isZero 0x80000000#32 = true ∧ isZero 0x00000000#32 = true) ∧
    (signBit 0x80000001#32 = true ∧ isZero 0x80000001#32 = false) := by decide

/-- Half the smallest subnormal, and the halfway point below infinity. -/
theorem witness_RoundsToNearestEven :
    (0 < 2 ∧ roundBody 1 2 < 0x7F800000 ∧ 1 < 0x7F800000) ∧ (0 < 1 ∧ (2 ^ 25 - 1) * 2 ^ 252 * 1 ≤ (2 ^ 25 - 1) * 2 ^ 252) ∧
      roundBody ((2 ^ 25 - 1) * 2 ^ 252 - 1) 1 < 0x7F800000 := by decide +kernel

theorem witness_DivideByPowerOfTwo : 0 ≤ 24 ∧ 24 ≤ 24 := by decide

theorem witness_TwiddleIndependentOfCapacity : 3 ≤ 3 ∧ 3 ≤ 24 ∧ 1 ≤ 3 ∧ 3 ≤ 3 ∧ 3 ≤ 24 ∧ 3 < 2 ^ (3 - 1) ∧ 0 < 2 ^ (1 - 1) := by decide

theorem witness_RomEntries : 3 ≤ 3 ∧ 5 ≤ 5 := by decide

theorem witness_BitReverseInvolution : 7 < 2 ^ 3 ∧ 2 < 3 ∧ 0 < 2 ^ 0 := by decide

/-- Operands of each clause, in their order. -/
theorem witness_Atan2SpecialCases :
    isNaN 0x7FC00001#32 = true ∧ isNaN 0x7F800000#32 = false ∧ isNaN 0x00000000#32 = false ∧
    (isZero 0x80000000#32 = true ∧ signBit 0x7F800000#32 = false ∧ signBit 0x80000000#32 = true) ∧
    (isZero 0x00000001#32 = false ∧ isInf 0x00000001#32 = false ∧ isZero 0x80000000#32 = true) ∧
    (isInf 0x7F800000#32 = true ∧ signBit 0x7F800000#32 = false) ∧ (isInf 0xFF800000#32 = true ∧ signBit 0xFF800000#32 = true) ∧
    isInf 0x7F7FFFFF#32 = false := by decide

end Sys2Proof.Tests
end

section
/-! Scope: a step runs the decoded command (R7, R24, R90, R215, R218), and the bus names the transactions (R60, R64, R66). -/

namespace Sys2Proof.Machine

/-! The host's and the engine's turn in a step -/

/-- The host's turn is the first operation of its script, on the state with the turn and the operation taken off (R66, R76). -/
theorem step_host_cons {s : State} {op : HostOp} {rest : List HostOp} (hn : nextAgent s = .host) (hs : s.script = op :: rest) :
    step s = hostOp op { passTurn s with script := rest } := by
  rw [step_host hn, hostTurn, passTurn_script, hs]

/-- The host's write of a command word to CMD in the idle state runs the command it decodes to (R215). -/
theorem step_issue {s : State} {w : Word} {rest : List HostOp} {i : Instr} (hn : nextAgent s = .host)
    (hs : s.script = .wr .cmd w :: rest) (hi : Idle s) (hd : decodeWord w = .ok i) :
    step s = exec i { passTurn s with script := rest } := by
  have hidle : Idle { passTurn s with script := rest } := hi
  rw [step_host_cons hn hs, hostOp, regWrite, issueCommand_decoded hidle hd]

/-- The engine's turn while BUSY runs the command in CMD (R218). -/
theorem step_complete {s : State} {i : Instr} (hn : nextAgent s = .engine) (hb : s.status.busy = true)
    (hd : decodeWord s.cmd = .ok i) : step s = exec i (passTurn s) := by
  rw [step_engine hn, engineTurn_busy (s := passTurn s) hb hd]

theorem withFetchWord_nextAgent (s : State) (nbits w : Nat) : nextAgent (s.withFetchWord nbits w) = .host := rfl

theorem withFetchWord_idle (s : State) (nbits w : Nat) : Idle (s.withFetchWord nbits w) := ⟨rfl, rfl⟩

/-- A whole word is placed unchanged as the next write to CMD (R90). -/
theorem withFetchWord_script (s : State) (w : Word) :
    (s.withFetchWord 32 w.toNat).script = .wr .cmd w :: s.script := by
  have hw : BitVec.ofNat 32 (w.toNat % 2 ^ 32) = w := by rw [Nat.mod_eq_of_lt w.isLt, BitVec.ofNat_toNat, BitVec.setWidth_eq]
  rw [State.withFetchWord, hw]

/-- Settles O5, from what a host's turn and an engine's turn do; `withFetchWord` is a case of the host's write. -/
theorem stepRunsDecodedCommand : Obligations.StepRunsDecodedCommand := by
  refine ⟨?host, ?engine, ?placed⟩
  case host =>
    intro s w rest i hn hs hi hd
    exact step_issue hn hs hi hd
  case engine =>
    intro s i hn hb hd
    exact step_complete hn hb hd
  case placed =>
    intro s w i hd
    exact step_issue (withFetchWord_nextAgent s 32 w.toNat) (withFetchWord_script s w) (withFetchWord_idle s 32 w.toNat) hd

/-! Bus accesses at word offsets of the window -/

theorem inWindow_base_add {p : Params} {off : Nat} (hw : off < windowBytes p) : inWindow p (windowBase p + off) = true := by
  simp [inWindow, hw]

theorem isAlignedWord_base_add {p : Params} {off : Nat} (ha : off % 4 = 0) :
    isAlignedWord (windowBase p + off) 4 = true := by
  have hb := windowBase_aligned p
  have hsum : (windowBase p + off) % 4 = 0 := by omega
  simp [isAlignedWord, hsum]

section WordOffset

variable {s : State} {off : Nat}

/-- A word read at the offset of a register is the read of that register (R64, R66). -/
theorem memRead_of_targetOf_reg {r : Reg} (hw : off < windowBytes s.params) (ha : off % 4 = 0)
    (ht : targetOf s.params off = .reg r) : hostOp (.memRead (windowBase s.params + off) 4) s = hostOp (.rd r) s := by
  simp [hostOp, busRead, inWindow_base_add hw, isAlignedWord_base_add ha, ht]

/-- A word write at the offset of a register is the write of that register (R64, R66). -/
theorem memWrite_of_targetOf_reg {r : Reg} (v : Word) (hw : off < windowBytes s.params) (ha : off % 4 = 0)
    (ht : targetOf s.params off = .reg r) : hostOp (.memWrite (windowBase s.params + off) 4 v) s = hostOp (.wr r v) s := by
  simp [hostOp, busWrite, inWindow_base_add hw, isAlignedWord_base_add ha, ht]

/-- A word read at the offset of a sample word is the read of that sample (R64, R66). -/
theorem memRead_of_targetOf_sample {pl : Plane} {k : Nat} (hw : off < windowBytes s.params) (ha : off % 4 = 0)
    (ht : targetOf s.params off = .sample pl k) :
    hostOp (.memRead (windowBase s.params + off) 4) s = hostOp (.rs pl k) s := by
  simp [hostOp, busRead, inWindow_base_add hw, isAlignedWord_base_add ha, ht]

/-- A word write at the offset of a sample word is the write of that sample (R64, R66). -/
theorem memWrite_of_targetOf_sample {pl : Plane} {k : Nat} (v : Word) (hw : off < windowBytes s.params) (ha : off % 4 = 0)
    (ht : targetOf s.params off = .sample pl k) :
    hostOp (.memWrite (windowBase s.params + off) 4 v) s = hostOp (.ws pl k v) s := by
  simp [hostOp, busWrite, inWindow_base_add hw, isAlignedWord_base_add ha, ht]

end WordOffset

/-- The registers stand in the window (R64). -/
theorem regOffset_lt_windowBytes (p : Params) (r : Reg) : 4 * regNumber r < windowBytes p := by
  have hr := regNumber_le r
  have hp := planeBytes_ge p
  rw [windowBytes]
  omega

/-- The sample words stand in the window (R64). -/
theorem sampleAddr_lt_windowBytes {p : Params} (pl : Plane) {k : Nat} (hk : k < nmax p) : sampleAddr p pl k < windowBytes p := by
  have hend := (planeBase_bounds p pl).2
  have hsize := planeBytes_eq p
  rw [sampleAddr, windowBytes]
  omega

theorem sampleAddr_aligned (p : Params) (pl : Plane) (k : Nat) : sampleAddr p pl k % 4 = 0 := by
  have hb := planeBase_aligned p pl
  rw [sampleAddr]
  omega

/-- Settles O45, from what the window holds at each register's and each sample word's offset. -/
theorem busNamesTransactions : Obligations.BusNamesTransactions := by
  refine ⟨rfl, rfl, fun s v => ⟨rfl, rfl, ?registers, ?samples⟩⟩
  case registers =>
    intro r
    have hw := regOffset_lt_windowBytes s.params r
    have ha : 4 * regNumber r % 4 = 0 := by omega
    have ht := targetOf_reg s.params r
    exact ⟨memRead_of_targetOf_reg hw ha ht, memWrite_of_targetOf_reg v hw ha ht⟩
  case samples =>
    intro pl k hk
    have hw := sampleAddr_lt_windowBytes pl hk
    have ha := sampleAddr_aligned s.params pl k
    have ht := targetOf_sample (pl := pl) hk
    exact ⟨memRead_of_targetOf_sample hw ha ht, memWrite_of_targetOf_sample v hw ha ht⟩

end Sys2Proof.Machine
end

section
/-! Scope: the state (10_state.md). The invariant of the machine at reset and along every step (R26, R35 to R38, R43, R60, R75,
R300), no step from a legal state faults (R218, R219), ownership while BUSY (R71, R77, R310), the frame of a command and what its result
depends on (R22, R40, R171, R216 to R218), and the registers (R31 to R38, R69, R70). -/

namespace Sys2Proof.Machine

/-! The command word an accepted command leaves in CMD (R35, R96) -/

/-- What the decoder answers has an encoding: the stage number fits its field (R91, R92). -/
theorem wellFormed_of_decodeWord {w : Word} {i : Instr} (h : decodeWord w = .ok i) : WellFormed i = true := by
  cases i with
  | bfstg d stg inv =>
    unfold decodeWord at h
    repeat' split at h
    all_goals cases h
    exact decide_eq_true (Nat.mod_lt _ (by decide))
  | _ => rfl

theorem eq_ok_of_toOption {x : Except Reject Instr} {i : Instr} (h : x.toOption = some i) : x = .ok i := by
  cases x with
  | ok j => injection h with h; rw [h]
  | error r => cases h

/-- Every stage number of the field STG survives the round trip. -/
theorem decodeWord_encode_bfstg (d : Buf) (inv : Dir) :
    ∀ stg < 32, (decodeWord (encode (.bfstg d stg inv))).toOption = some (.bfstg d stg inv) := by
  cases d <;> cases inv <;> decide

/-- The command word of a well-formed instruction decodes to it (R96, R100). -/
theorem decodeWord_encode {i : Instr} (h : WellFormed i = true) : decodeWord (encode i) = .ok i := by
  cases i with
  | fft d => cases d <;> rfl
  | ifft d => cases d <;> rfl
  | cmul d s1 s2 => cases d <;> cases s1 <;> cases s2 <;> rfl
  | bitrev d => cases d <;> rfl
  | bfstg d stg inv => exact eq_ok_of_toOption (decodeWord_encode_bfstg d inv stg (of_decide_eq_true h))
  | scale d => cases d <;> rfl
  | magph d s1 => cases d <;> cases s1 <;> rfl

/-! The flag invariants of R26, flag update by flag update -/

theorem flagsOk_statusReset : FlagsOk statusReset := ⟨by decide, by decide, by decide, by decide, by decide⟩

section Flags

variable {f : Status} (h : FlagsOk f)
include h

/-- OVR takes no part in R26. -/
theorem flagsOk_overrunFlags : FlagsOk (overrunFlags f) :=
  ⟨h.busyDone, h.busyErr, h.doneErr, h.codeZero, h.codeLegal⟩

/-- A write to STATUS sets no flag. -/
theorem flagsOk_clearFlags (v : Word) : FlagsOk (clearFlags f v) where
  busyDone := fun ⟨hb, hd⟩ => h.busyDone ⟨hb, (Bool.and_eq_true_iff.1 hd).1⟩
  busyErr := h.busyErr
  doneErr := fun ⟨hd, he⟩ => h.doneErr ⟨(Bool.and_eq_true_iff.1 hd).1, he⟩
  codeZero := h.codeZero
  codeLegal := h.codeLegal

/-- Acceptance sets BUSY and clears DONE where ERR is 0. -/
theorem flagsOk_acceptFlags (he : f.err = false) : FlagsOk (acceptFlags f) where
  busyDone := by simp
  busyErr := by simp [he]
  doneErr := by simp
  codeZero := h.codeZero
  codeLegal := h.codeLegal

/-- Completion clears BUSY and sets DONE: with BUSY 1, ERR was 0. -/
theorem flagsOk_completeFlags (hb : f.busy = true) : FlagsOk (completeFlags f) where
  busyDone := by simp
  busyErr := by simp
  doneErr := fun ⟨_, he⟩ => h.busyErr ⟨hb, he⟩
  codeZero := h.codeZero
  codeLegal := h.codeLegal

end Flags

/-- The codes the hardware raises are 1, 2, 4, 5 and 6 (R260). -/
theorem errorCode_legal {e : ErrCode} (he : e ≠ .emptyInput) :
    errorCode e ≠ 0#4 ∧ errorCode e ≠ 3#4 ∧ (errorCode e).toNat ≤ 6 := by
  cases e with
  | emptyInput => exact absurd rfl he
  | _ => decide

/-- An error entry with BUSY 0 sets ERR and the code together and clears DONE; no earlier flag matters. -/
theorem flagsOk_errorFlags {f : Status} {e : ErrCode} (hb : f.busy = false) (he : e ≠ .emptyInput) :
    FlagsOk (errorFlags f e) where
  busyDone := by simp
  busyErr := by simp [hb]
  doneErr := by simp
  codeZero := by simp [(errorCode_legal he).1]
  codeLegal := (errorCode_legal he).2

/-! A command in flight and what it looks at -/

/-- The command in flight in `s` is in flight in `t`, over the same operands. -/
structure SameFlight (s t : State) : Prop where
  busy : t.status.busy = s.status.busy
  cmd : t.cmd = s.cmd
  lena : t.lena = s.lena
  lenb : t.lenb = s.lenb
  mem : t.mem = s.mem
  params : t.params = s.params

theorem SameFlight.refl (s : State) : SameFlight s s := ⟨rfl, rfl, rfl, rfl, rfl, rfl⟩

theorem SameFlight.trans {s t u : State} (h : SameFlight s t) (h' : SameFlight t u) : SameFlight s u :=
  ⟨h'.busy.trans h.busy, h'.cmd.trans h.cmd, h'.lena.trans h.lena, h'.lenb.trans h.lenb, h'.mem.trans h.mem,
    h'.params.trans h.params⟩

theorem SameUnit.sameFlight {s t : State} (h : SameUnit s t) : SameFlight s t :=
  ⟨congrArg Status.busy h.status, h.cmd, h.lena, h.lenb, h.mem, h.params⟩

theorem sameFlight_dropWrite (s : State) : SameFlight s (dropWrite s) := ⟨rfl, rfl, rfl, rfl, rfl, rfl⟩

theorem sameFlight_writeStatus (v : Word) (s : State) : SameFlight s (writeStatus v s) := ⟨rfl, rfl, rfl, rfl, rfl, rfl⟩

/-- Without SRST a write to CTRL sets the enables alone (R33). -/
theorem sameFlight_writeCtrl {v : Word} (hv : v.getLsbD 0 = false) (s : State) : SameFlight s (writeCtrl v s) := by
  rw [writeCtrl_enables hv]
  exact ⟨rfl, rfl, rfl, rfl, rfl, rfl⟩

/-! The memory's part of the invariant -/

/-- What the invariant says of the sample memory. -/
structure MemOk (p : Params) (m : Memory) : Prop where
  sorted : Memory.wf m
  inPlanes : ∀ c ∈ m, planeBytes p ≤ c.1 ∧ c.1 < 5 * planeBytes p
  whole : ∀ c ∈ m, ∀ k < 4, (byteAt m (c.1 / 4 * 4 + k)).isSome = true

theorem Inv.memOk {s : State} (h : Inv s) : MemOk s.params s.mem := ⟨h.sorted, h.inPlanes, h.whole⟩

theorem memOk_nil (p : Params) : MemOk p [] := ⟨List.Pairwise.nil, by simp, by simp⟩

theorem memOk_writeBuf {s : State} {xs : List Cx} (h : MemOk s.params s.mem) (b : Buf) (hx : xs.length ≤ nmax s.params) :
    MemOk s.params (writeBuf s b xs) :=
  ⟨writeBuf_wf b xs h.sorted, writeBuf_inPlanes hx h.inPlanes, writeBuf_whole b xs h.whole⟩

/-- A sample write stays inside its plane (R73, R75). -/
theorem memOk_writeSample {p : Params} {m : Memory} {k : Nat} (h : MemOk p m) (pl : Plane) (hk : k < nmax p) (v : Word) :
    MemOk p (writeWords m (sampleAddr p pl k) [some v]) where
  sorted := writeWords_wf _ _ h.sorted
  inPlanes := fun c hc => by
    have hplane := planeBase_bounds p pl
    have hsize := planeBytes_eq p
    rcases mem_writeWords hc with hold | hnew
    · exact h.inPlanes c hold
    · rw [sampleAddr, List.length_singleton] at hnew
      omega
  whole := writeWords_whole (sampleAddr_aligned p pl k) h.whole

/-- A soft reset gives up at most `NMAX` words of each plane (R302). -/
theorem memOk_abandonOperand {s : State} (h : MemOk s.params s.mem) : MemOk s.params (abandonOperand s) := by
  unfold abandonOperand
  split
  · split
    · exact memOk_writeBuf h _ (by rw [List.length_replicate]; exact Nat.min_le_right _ _)
    · exact h
  · exact h

/-- A validated command writes at most `NMAX` elements (R263). -/
theorem memOk_updateOf {i : Instr} {s : State} (h : MemOk s.params s.mem) (hv : validate i s = none) :
    MemOk s.params (updateOf i s) := by
  obtain ⟨hupdate, hlen⟩ := updateOf_eq i s
  rw [hupdate]
  exact memOk_writeBuf h _ (hlen ▸ operandLen_le hv)

/-! The invariant, operation by operation -/

/-- After either reset of the unit only the memory is left to look at (R43). -/
theorem inv_clearRegisters {s : State} (h : MemOk s.params s.mem) : Inv (clearRegisters s) where
  flags := flagsOk_statusReset
  info := fun _ => rfl
  word := .inl rfl
  inFlight := fun hb => absurd hb (by simp)
  sorted := h.sorted
  inPlanes := h.inPlanes
  whole := h.whole

theorem inv_hardReset (s : State) : Inv (hardReset s) :=
  inv_clearRegisters (s := { s with mem := [] }) (memOk_nil s.params)

/-- Settles O23: with its registers cleared and no byte listed, the state after reset is a legal one. -/
theorem invAtReset : Obligations.InvAtReset :=
  fun p sched script => inv_hardReset { resetOf p with sched := sched, script := script }

section Updates

variable {s : State} (h : Inv s)
include h

/-- The invariant speaks of the unit alone, so each of its fields is the old one rewritten. -/
theorem inv_of_sameUnit {t : State} (hst : SameUnit s t) : Inv t := by
  obtain ⟨hparams, _, hstatus, hcmd, herrinfo, hlena, hlenb, hmem⟩ := hst
  have hval (i : Instr) : validate i t = validate i s := validate_congr hparams hlena hlenb
  obtain ⟨hflags, hinfo, hword, hflight, hsorted, hplanes, hwhole⟩ := h
  constructor <;> simpa only [hparams, hstatus, hcmd, herrinfo, hmem, hval]

/-- A command in flight stays validated while nothing its validation reads changes (R37). -/
theorem inFlight_of_sameFlight {t : State} (hst : SameFlight s t) (hb : t.status.busy = true) :
    ∃ i, decodeWord t.cmd = .ok i ∧ validate i t = none := by
  obtain ⟨i, hd, hv⟩ := h.inFlight (hst.busy ▸ hb)
  exact ⟨i, hst.cmd ▸ hd, (validate_congr hst.params hst.lena hst.lenb).trans hv⟩

theorem inv_dropWrite : Inv (dropWrite s) :=
  { h with
    flags := flagsOk_overrunFlags h.flags
    inFlight := inFlight_of_sameFlight h (sameFlight_dropWrite s) }

theorem inv_writeStatus (v : Word) : Inv (writeStatus v s) :=
  { h with
    flags := flagsOk_clearFlags h.flags v
    inFlight := inFlight_of_sameFlight h (sameFlight_writeStatus v s) }

theorem inv_softReset : Inv (softReset s) :=
  inv_clearRegisters (s := { s with mem := abandonOperand s }) (memOk_abandonOperand h.memOk)

theorem inv_writeCtrl (v : Word) : Inv (writeCtrl v s) := by
  cases hv : v.getLsbD 0 with
  | true => rw [writeCtrl_reset hv]; exact inv_softReset h
  | false =>
    have hflight := inFlight_of_sameFlight h (sameFlight_writeCtrl hv s)
    rw [writeCtrl_enables hv] at hflight ⊢
    exact { h with inFlight := hflight }

theorem inv_setLena (hi : Idle s) (v : Word) : Inv { s with lena := v } :=
  { h with inFlight := fun hb => absurd hb (by simp [hi.1]) }

theorem inv_setLenb (hi : Idle s) (v : Word) : Inv { s with lenb := v } :=
  { h with inFlight := fun hb => absurd hb (by simp [hi.1]) }

theorem inv_setMem (hi : Idle s) {m : Memory} (hm : MemOk s.params m) : Inv { s with mem := m } :=
  { h with
    inFlight := fun hb => absurd hb (by simp [hi.1])
    sorted := hm.sorted
    inPlanes := hm.inPlanes
    whole := hm.whole }

theorem inv_errorEntry (hi : Idle s) {e : ErrCode} (he : e ≠ .emptyInput) (w : Word) : Inv (errorEntry e w s) :=
  { h with
    flags := flagsOk_errorFlags hi.1 he
    info := fun herr => absurd herr (by simp)
    inFlight := fun hb => absurd hb (by simp [hi.1]) }

/-- The command accepted is the one its word decodes to, and the lengths it was validated against stand (R217). -/
theorem inv_accept (hi : Idle s) {i : Instr} (hd : decodeWord (encode i) = .ok i) (hv : validate i s = none) :
    Inv (accept (encode i) s) :=
  { h with
    flags := flagsOk_acceptFlags h.flags hi.2
    word := .inr ⟨i, hd⟩
    inFlight := fun _ => ⟨i, hd, (validate_congr (accept_params _ s) (accept_lena _ s) (accept_lenb _ s)).trans hv⟩ }

theorem inv_complete (hb : s.status.busy = true) {i : Instr} (hv : validate i s = none) : Inv (complete (updateOf i s) s) :=
  have hm := memOk_updateOf h.memOk hv
  { flags := flagsOk_completeFlags h.flags hb
    info := h.info
    word := h.word
    inFlight := fun hbusy => absurd hbusy (by simp)
    sorted := hm.sorted
    inPlanes := hm.inPlanes
    whole := hm.whole }

/-- Whatever a host's operation does, it keeps the invariant. -/
theorem inv_of_hostEffect {t : State} (he : HostEffect s t) : Inv t := by
  cases he with
  | same hst => exact inv_of_sameUnit h hst
  | dropped _ ht => exact ht ▸ inv_dropWrite h
  | flags v ht => exact ht ▸ inv_writeStatus h v
  | control v ht => exact ht ▸ inv_writeCtrl h v
  | cleared ht => exact ht ▸ inv_hardReset s
  | lengthA hi v ht => exact ht ▸ inv_setLena h hi v
  | lengthB hi v ht => exact ht ▸ inv_setLenb h hi v
  | stored hi pl k hk v ht => exact ht ▸ inv_setMem h hi (memOk_writeSample h.memOk pl hk v)
  | illegal hi w _ _ ht => exact ht ▸ inv_errorEntry h hi (by decide) w
  | rejected hi _ i _ e hv ht =>
    exact ht ▸ inv_errorEntry h hi (fun hempty => validate_ne_emptyInput i s (hempty ▸ hv)) (encode i)
  | accepted hi _ i hd hv ht => exact ht ▸ inv_accept h hi (decodeWord_encode (wellFormed_of_decodeWord hd)) hv

end Updates

theorem writeCtrl_params (v : Word) (s : State) : (writeCtrl v s).params = s.params := by
  cases hv : v.getLsbD 0 with
  | true => rw [writeCtrl_reset hv, softReset_params]
  | false => rw [writeCtrl_enables hv]

/-- No operation of the host writes the configuration (R20). -/
theorem params_of_hostEffect {s t : State} (he : HostEffect s t) : t.params = s.params := by
  cases he with
  | same hst => exact hst.params
  | control v ht => exact ht ▸ writeCtrl_params v s
  | dropped _ ht | flags _ ht | cleared ht | lengthA _ _ ht | lengthB _ _ ht | stored _ _ _ _ _ ht | illegal _ _ _ _ ht
  | rejected _ _ _ _ _ _ ht | accepted _ _ _ _ _ ht => exact ht ▸ rfl

/-- The state the host's operation runs on is the same unit (R76). -/
theorem sameUnit_hostTurn (s : State) (rest : List HostOp) : SameUnit s { passTurn s with script := rest } :=
  ⟨rfl, rfl, rfl, rfl, rfl, rfl, rfl, rfl⟩

/-- Settles O24, from the three things a step can do: nothing to the unit, a completion, or an operation of the host. -/
theorem invKeptByStep : Obligations.InvKeptByStep := by
  intro s t h hstep
  rcases step_effect hstep with hsame | ⟨hb, i, _, hv, rfl⟩ | ⟨op, rest, _, hop⟩
  · exact ⟨inv_of_sameUnit h hsame, hsame.params⟩
  · have hturn : Inv (passTurn s) := inv_of_sameUnit h (sameUnit_passTurn s)
    have hvalid : validate i (passTurn s) = none :=
      (validate_congr (passTurn_params s) (passTurn_lena s) (passTurn_lenb s)).trans hv
    exact ⟨inv_complete hturn hb hvalid, rfl⟩
  · have hturn := sameUnit_hostTurn s rest
    have heffect := hostOp_effect hop
    exact ⟨inv_of_hostEffect (inv_of_sameUnit h hturn) heffect, (params_of_hostEffect heffect).trans hturn.params⟩

/-- Every run from reset keeps the invariant. -/
theorem inv_of_reachable {s : State} (h : Reachable s) : Inv s := by
  induction h with
  | start p sched script => exact invAtReset p sched script
  | next _ hstep ih => exact (invKeptByStep _ _ ih hstep).1

/-- Settles O25: the flag invariants are a part of the invariant of every reachable state. -/
theorem flagInvariants : Obligations.FlagInvariants := by
  intro s h
  obtain ⟨hbusyDone, hbusyErr, hdoneErr, hzero, hlegal⟩ := (inv_of_reachable h).flags
  exact ⟨hbusyDone, hbusyErr, hdoneErr, hzero, hlegal⟩

/-! No step from a legal state faults -/

/-- A write to CMD always answers a next state: the two faults are the engine's (R215). -/
theorem issueCommand_answers (w : Word) (s : State) : ∃ t, issueCommand w s = .next t := by
  cases hl : locked s with
  | true => exact ⟨_, issueCommand_locked hl⟩
  | false =>
    have hi : Idle s := (locked_eq_false_iff s).1 hl
    cases hd : decodeWord w with
    | error r => exact ⟨_, issueCommand_illegal hi hd⟩
    | ok i =>
      rw [issueCommand_decoded hi hd]
      cases hv : validate i s with
      | none => exact ⟨_, exec_accept hi hv⟩
      | some e => exact ⟨_, exec_error hi hv⟩

theorem regWrite_answers (r : Reg) (v : Word) (s : State) : ∃ t, regWrite r v s = .next t := by
  cases r with
  | cmd => exact issueCommand_answers v s
  | _ => exact ⟨_, rfl⟩

theorem regWrite_not_fault (r : Reg) (v : Word) (s : State) (f : Fault) : regWrite r v s ≠ .fault f := by
  obtain ⟨t, ht⟩ := regWrite_answers r v s
  simp [ht]

theorem sampleRead_not_fault (pl : Plane) (k : Nat) (s : State) (f : Fault) : sampleRead pl k s ≠ .fault f := by
  unfold sampleRead
  split
  · simp
  · split
    · simp
    · split <;> simp

theorem sampleWrite_not_fault (pl : Plane) (k : Nat) (v : Word) (s : State) (f : Fault) : sampleWrite pl k v s ≠ .fault f := by
  unfold sampleWrite
  split
  · simp
  · split <;> simp

theorem busRead_not_fault (addr size : Nat) (s : State) (f : Fault) : busRead addr size s ≠ .fault f := by
  unfold busRead
  split
  · simp
  · split
    · simp
    · split
      · simp
      · exact sampleRead_not_fault _ _ s f
      · simp

theorem busWrite_not_fault (addr size : Nat) (v : Word) (s : State) (f : Fault) : busWrite addr size v s ≠ .fault f := by
  unfold busWrite
  split
  · simp
  · split
    · simp
    · split
      · exact regWrite_not_fault _ v s f
      · exact sampleWrite_not_fault _ _ v s f
      · simp

/-- No operation of the host faults, in any state. -/
theorem hostOp_not_fault (op : HostOp) (s : State) (f : Fault) : hostOp op s ≠ .fault f := by
  cases op with
  | wr r v => exact regWrite_not_fault r v s f
  | rs pl k => exact sampleRead_not_fault pl k s f
  | ws pl k v => exact sampleWrite_not_fault pl k v s f
  | memRead addr size => exact busRead_not_fault addr size s f
  | memWrite addr size v => exact busWrite_not_fault addr size v s f
  | _ => simp [hostOp]

theorem hostTurn_not_fault (s : State) (f : Fault) : hostTurn s ≠ .fault f := by
  unfold hostTurn
  split
  · simp
  · exact hostOp_not_fault _ _ f

/-- The engine completes a validated command in flight (R218). -/
theorem engineTurn_complete {i : Instr} {s : State} (hb : s.status.busy = true) (hd : decodeWord s.cmd = .ok i)
    (hv : validate i s = none) : engineTurn s = .next (complete (updateOf i s) s) := by
  rw [engineTurn_busy hb hd, exec_busy hb hv]

/-- What the engine finds in CMD is a command that passes its validation (R37, R219). -/
theorem engineTurn_not_fault {s : State} (h : Inv s) (f : Fault) : engineTurn s ≠ .fault f := by
  cases hb : s.status.busy with
  | false => simp [engineTurn_idle hb]
  | true =>
    obtain ⟨i, hd, hv⟩ := h.inFlight hb
    simp [engineTurn_complete hb hd hv]

/-- Settles O26: the host's turn never faults, the engine's never in a legal state. -/
theorem noFaultUnderInv : Obligations.NoFaultUnderInv := by
  intro s f h
  cases hn : nextAgent s with
  | host => rw [step_host hn]; exact hostTurn_not_fault _ f
  | engine => rw [step_engine hn]; exact engineTurn_not_fault (inv_of_sameUnit h (sameUnit_passTurn s)) f

/-! What a command computes depends on -/

section Operands

variable {s t : State}

theorem len_congr (ha : s.lena = t.lena) (hb : s.lenb = t.lenb) (b : Buf) : len s b = len t b := by
  cases b <;> simp [len, lenWord, ha, hb]

theorem readBuf_congr {b : Buf} {n : Nat} (h : SameBelow s t b n) : readBuf s b n = readBuf t b n :=
  List.map_congr_left fun i hi => h i (List.mem_range.1 hi)

/-- The elements a command writes are a function of the configuration, the lengths and its sources below the operand
length (R40). -/
theorem resultOf_congr {i : Instr} (hp : s.params = t.params) (ha : s.lena = t.lena) (hb : s.lenb = t.lenb)
    (hsrc : ∀ b ∈ sourcesOf i, SameBelow s t b (operandLen i s)) : resultOf i s = resultOf i t := by
  have hread (b : Buf) (hmem : b ∈ sourcesOf i) : readBuf s b (operandLen i s) = readBuf t b (operandLen i s) :=
    readBuf_congr (hsrc b hmem)
  cases i <;> simp_all [resultOf, operandLen, lengthBuf, sourcesOf, len_congr ha hb]

theorem elemAt_congr (hp : s.params = t.params) (hm : s.mem = t.mem) (b : Buf) (k : Nat) : elemAt s b k = elemAt t b k := by
  simp [elemAt, sampleAt, hp, hm]

/-- Over the same memory a command leaves the same memory. -/
theorem updateOf_congr (i : Instr) (hp : s.params = t.params) (ha : s.lena = t.lena) (hb : s.lenb = t.lenb) (hm : s.mem = t.mem) :
    updateOf i s = updateOf i t := by
  have hresult : resultOf i s = resultOf i t := resultOf_congr hp ha hb fun b _ k _ => elemAt_congr hp hm b k
  rw [(updateOf_eq i s).1, (updateOf_eq i t).1, hresult, writeBuf, writeBuf, hp, hm]

end Operands

/-- Below the operand length the destination holds the command's result (R219). -/
theorem elemAt_complete_result {i : Instr} {s : State} {k : Nat} (hv : validate i s = none) (hk : k < operandLen i s) :
    elemAt (complete (updateOf i s) s) (destOf i) k = elem (resultOf i s) k := by
  have hlen : k < (resultOf i s).length := (updateOf_eq i s).2.symm ▸ hk
  rw [elemAt_complete hv (Nat.lt_of_lt_of_le hk (operandLen_le hv)), dif_pos hlen, elem, List.getD_eq_getElem?_getD,
    List.getElem?_eq_getElem hlen, Option.getD_some]

/-- Settles O36: both states complete, and the results written are one list. -/
theorem resultDependsOnOperandsOnly : Obligations.ResultDependsOnOperandsOnly := by
  intro i s s' hb hb' hv hp ha hlb hsrc
  have hv' : validate i s' = none := (validate_congr hp ha hlb).trans hv
  have hresult : resultOf i s = resultOf i s' := resultOf_congr hp.symm ha.symm hlb.symm hsrc
  have hlen : operandLen i s = operandLen i s' := len_congr ha.symm hlb.symm _
  refine ⟨_, _, exec_busy hb hv, exec_busy hb' hv', fun k hk => ?_⟩
  rw [elemAt_complete_result hv hk, elemAt_complete_result hv' (hlen ▸ hk), hresult]

/-! Ownership while BUSY -/

section Flight

variable {s t : State} (hb : s.status.busy = true)
include hb

/-- While BUSY a register write without SRST leaves the command in flight as it is: it is dropped, ignored, or one of the
flags and enables (R33, R34, R71). -/
theorem regWrite_sameFlight {r : Reg} {v : Word} (hv : r = .ctrl → v.getLsbD 0 = false) (h : regWrite r v s = .next t) :
    SameFlight s t := by
  have hl : locked s = true := (locked_eq_true_iff s).2 (.inl hb)
  cases r with
  | ctrl => injection h with h; exact h ▸ sameFlight_writeCtrl (hv rfl) s
  | status => injection h with h; exact h ▸ sameFlight_writeStatus v s
  | cmd => rw [regWrite, issueCommand_locked hl] at h; injection h with h; exact h ▸ sameFlight_dropWrite s
  | lena => rw [regWrite, writeLena, if_pos hl] at h; injection h with h; exact h ▸ sameFlight_dropWrite s
  | lenb => rw [regWrite, writeLenb, if_pos hl] at h; injection h with h; exact h ▸ sameFlight_dropWrite s
  | id | cap | errinfo => injection h with h; exact h ▸ SameFlight.refl s

/-- While BUSY a sample write is dropped (R71). -/
theorem sampleWrite_sameFlight {pl : Plane} {k : Nat} {v : Word} (h : sampleWrite pl k v s = .next t) : SameFlight s t := by
  have hl : locked s = true := (locked_eq_true_iff s).2 (.inl hb)
  rw [sampleWrite, if_pos hl] at h
  split at h
  · cases h
  · injection h with h
    exact h ▸ sameFlight_dropWrite s

/-- The one bus write that resets the unit is that of CTRL at its own address (R64, R66). -/
theorem busWrite_sameFlight {addr size : Nat} {v : Word} (hk : keepsCommand s.params (.memWrite addr size v) = true)
    (h : busWrite addr size v s = .next t) : SameFlight s t := by
  unfold busWrite at h
  split at h
  · cases h
  · rename_i hin
    split at h
    · cases h
    · rename_i haligned
      split at h
      · rename_i r hr
        refine regWrite_sameFlight hb (fun hctrl => ?_) h
        subst hctrl
        have hlo : windowBase s.params ≤ addr := by simp_all [inWindow]
        have hmod : addr % 4 = 0 := by simp_all [isAlignedWord]
        have hbase := windowBase_aligned s.params
        have hoff := targetOf_reg_eq (by omega) hr
        have haddr : addr = windowBase s.params + 4 * regNumber .ctrl := by omega
        simpa [keepsCommand, haddr] using hk
      · exact sampleWrite_sameFlight hb h
      · injection h with h
        exact h ▸ SameFlight.refl s

/-- While BUSY no operation of the host but a reset touches the command in flight (R77, R310). -/
theorem hostOp_sameFlight {op : HostOp} (hk : keepsCommand s.params op = true) (h : hostOp op s = .next t) : SameFlight s t := by
  cases op with
  | wr r v =>
    refine regWrite_sameFlight hb (fun hctrl => ?_) h
    subst hctrl
    simpa [keepsCommand] using hk
  | ws pl k v => exact sampleWrite_sameFlight hb h
  | memWrite addr size v => exact busWrite_sameFlight hb hk h
  | reset => cases hk
  | rd r => injection h with h; exact h ▸ (sameUnit_pushRead _ s).sameFlight
  | rs pl k => exact (sampleRead_same h).sameFlight
  | memRead addr size => exact (busRead_same h).sameFlight
  | wait => injection h with h; exact h ▸ (sameUnit_waitPoll s).sameFlight
  | abortIfErr => injection h with h; exact h ▸ (sameUnit_abortIfErr s).sameFlight
  | abortIfLensDiffer => injection h with h; exact h ▸ (sameUnit_abortIfLensDiffer s).sameFlight
  | returnOutput n => injection h with h; exact h ▸ ⟨rfl, rfl, rfl, rfl, rfl, rfl⟩
  | convolve a b => injection h with h; exact h ▸ (sameUnit_convolve a b s).sameFlight

end Flight

theorem runHost_cons {op : HostOp} {ops : List HostOp} {s t : State} (h : runHost (op :: ops) s = .next t) :
    ∃ u, hostOp op s = .next u ∧ runHost ops u = .next t := by
  rw [runHost] at h
  split at h
  · rename_i u hu
    exact ⟨u, hu, h⟩
  · cases h
  · cases h

/-- Operation by operation, a sequence without a reset leaves the command in flight as it is. -/
theorem runHost_sameFlight {ops : List HostOp} {s t : State} (hb : s.status.busy = true)
    (hk : ∀ op ∈ ops, keepsCommand s.params op = true) (h : runHost ops s = .next t) : SameFlight s t := by
  induction ops generalizing s with
  | nil => injection h with h; exact h ▸ SameFlight.refl s
  | cons op ops ih =>
    obtain ⟨u, hop, hrest⟩ := runHost_cons h
    have hu : SameFlight s u := hostOp_sameFlight hb (hk op (by simp)) hop
    have hkeep : ∀ op' ∈ ops, keepsCommand u.params op' = true := fun op' hmem => hu.params ▸ hk op' (by simp [hmem])
    exact hu.trans (ih (hu.busy.trans hb) hkeep hrest)

/-- Settles O41: the host's operations leave the command in flight and its operands, on which alone its completion depends. -/
theorem ownershipWhileBusy : Obligations.OwnershipWhileBusy := by
  intro ops s t hb hk hrun
  have hst : SameFlight s t := runHost_sameFlight hb hk hrun
  obtain ⟨hbusy, hcmd, hlena, hlenb, hmem, hparams⟩ := hst
  have hbt : t.status.busy = true := hbusy.trans hb
  refine ⟨hbt, hcmd, hlena, hlenb, hmem, hparams, fun i hd hv => ?_⟩
  have hdt : decodeWord t.cmd = .ok i := hcmd ▸ hd
  have hvt : validate i t = none := (validate_congr hparams hlena hlenb).trans hv
  exact ⟨_, _, engineTurn_complete hb hd hv, engineTurn_complete hbt hdt hvt,
    updateOf_congr i hparams hlena hlenb hmem, rfl, rfl⟩

/-! The frame of a command -/

/-- Settles O35, phase by phase: completion, a dropped issue, an error entry, an acceptance (R171, R216 to R218). -/
theorem commandFrame : Obligations.CommandFrame := by
  intro i s t h
  rcases exec_cases h with ⟨hb, _, rfl⟩ | ⟨hb, he, rfl⟩ | ⟨hi, e, _, rfl⟩ | ⟨hi, _, rfl⟩
  · refine ⟨rfl, rfl, rfl, rfl, rfl, rfl, rfl, rfl, rfl, fun _ => ⟨rfl, rfl, rfl, fun a hre him => ?_⟩,
      fun hidle => ?_, fun hidle => ?_, fun hidle => ?_⟩
    · exact byteAt_updateOf (by omega) (by omega)
    · simp [hb] at hidle
    · simp [hb] at hidle
    · simp [Idle, hb] at hidle
  · refine ⟨rfl, rfl, rfl, rfl, rfl, rfl, rfl, rfl, rfl, fun hbusy => ?_, fun _ _ => rfl,
      fun _ _ => ⟨rfl, rfl, rfl⟩, fun hidle => ?_⟩
    · simp [hb] at hbusy
    · simp [Idle, he] at hidle
  · refine ⟨rfl, rfl, rfl, rfl, rfl, rfl, rfl, rfl, rfl, fun hbusy => ?_, fun _ _ => rfl, fun _ herr => ?_,
      fun _ => ⟨rfl, rfl, .inr ⟨rfl, rfl, hi.1, rfl⟩⟩⟩
    · simp [hi.1] at hbusy
    · simp [hi.2] at herr
  · refine ⟨rfl, rfl, rfl, rfl, rfl, rfl, rfl, rfl, rfl, fun hbusy => ?_, fun _ _ => rfl, fun _ herr => ?_,
      fun _ => ⟨rfl, rfl, .inl ⟨rfl, rfl, rfl, hi.2, rfl⟩⟩⟩
    · simp [hi.1] at hbusy
    · simp [hi.2] at herr

/-! The registers, bit by bit -/

/-- A flag's word has the flag at its bit and 0 elsewhere. -/
theorem getElem_flagAt (b : Bool) (i j : Nat) (hj : j < 32) : (flagAt b i)[j] = (decide (j = i) && b) := by
  have hbit : decide (j - i = 0) = decide (j ≤ i) := by simp [Nat.sub_eq_zero_iff_le]
  rw [flagAt, BitVec.getElem_shiftLeft, ← BitVec.getLsbD_eq_getElem, BitVec.getLsbD_setWidth, BitVec.getLsbD_ofBool, hbit]
  rcases Nat.lt_trichotomy j i with hlt | rfl | hgt
  · simp [Nat.ne_of_lt hlt, hlt]
  · simp
  · simp [Nat.ne_of_gt hgt, Nat.not_le_of_gt hgt]

/-- A mask without the flag's bit leaves nothing of a flag's word. -/
theorem flagAt_and_mask (b : Bool) {i : Nat} {mask : Word} (h : mask.getLsbD i = false) : flagAt b i &&& mask = 0#32 := by
  ext j hj
  rw [BitVec.getElem_and, getElem_flagAt, ← BitVec.getLsbD_eq_getElem]
  by_cases hji : j = i
  · simp [hji, h]
  · simp [hji]

/-- The fields of CAP and the bits that read 0 (R32), over every capacity of R5. -/
theorem capWord_fields (p : Params) :
    ((capWord p).extractLsb' 0 5).toNat = 3 + p.capacity.val ∧ (capWord p).getLsbD 8 = p.hasMagph ∧
      capWord p &&& 0xFFFFFEE0#32 = 0#32 := by
  have hfields : ∀ (capacity : Fin 22) (hasMagph : Bool),
      let w := BitVec.ofNat 32 (3 + capacity.val + if hasMagph then 256 else 0)
      (w.extractLsb' 0 5).toNat = 3 + capacity.val ∧ w.getLsbD 8 = hasMagph ∧ w &&& 0xFFFFFEE0#32 = 0#32 := by decide
  exact hfields p.capacity p.hasMagph

/-- BUSY, DONE, ERR and OVR are bits 0 to 3 of STATUS (R34). -/
theorem statusWord_flags (f : Status) :
    (statusWord f).getLsbD 0 = f.busy ∧ (statusWord f).getLsbD 1 = f.done ∧ (statusWord f).getLsbD 2 = f.err ∧
      (statusWord f).getLsbD 3 = f.ovr := by
  simp [statusWord, getElem_flagAt]

/-- ERRCODE is bits 11:8 of STATUS (R34). -/
theorem statusWord_errcode (f : Status) : (statusWord f).extractLsb' 8 4 = f.errcode := by
  ext k hk
  have hbits : 8 + k ≠ 1 ∧ 8 + k ≠ 2 ∧ 8 + k ≠ 3 ∧ 8 + k < 32 := by omega
  simp [statusWord, getElem_flagAt, hbits, BitVec.getLsbD_eq_getElem hk]

/-- The reserved bits of STATUS read 0 (R34). -/
theorem statusWord_reserved (f : Status) : statusWord f &&& 0xFFFFF0F0#32 = 0#32 := by
  have hcode : ∀ code : BitVec 4, code.setWidth 32 <<< 8 &&& 0xFFFFF0F0#32 = 0#32 := by decide
  simp [statusWord, BitVec.and_or_distrib_right, flagAt_and_mask, hcode]

/-- Settles O47, from the fields of the words CAP and STATUS read as. -/
theorem statusRegister : Obligations.StatusRegister := by
  intro s v
  obtain ⟨hcapacity, hmagph, hcap⟩ := capWord_fields s.params
  obtain ⟨hbusy, hdone, herr, hovr⟩ := statusWord_flags s.status
  exact ⟨fun _ => rfl, rfl, hcapacity, hmagph, hcap, rfl, rfl, rfl, rfl, hbusy, hdone, herr, hovr,
    statusWord_errcode s.status, statusWord_reserved s.status, rfl⟩

/-- IE_DONE and IE_ERR are bits 1 and 2 of CTRL, every other bit reads 0 (R33). -/
theorem ctrlWord_fields (c : Ctrl) :
    (ctrlWord c).getLsbD 1 = c.ieDone ∧ (ctrlWord c).getLsbD 2 = c.ieErr ∧ ctrlWord c &&& 0xFFFFFFF9#32 = 0#32 := by
  simp [ctrlWord, getElem_flagAt, BitVec.and_or_distrib_right, flagAt_and_mask]

/-- Settles O48, from the bits of CTRL and the two kinds of write to it. -/
theorem ctrlRegister : Obligations.CtrlRegister := by
  intro s v
  obtain ⟨hdone, herr, hreserved⟩ := ctrlWord_fields s.ctrl
  refine ⟨hdone, herr, hreserved, fun hv => ?_, fun hv => ⟨_, rfl, writeCtrl_enables hv s⟩⟩
  rw [hostOp, regWrite, writeCtrl_reset hv]

/-- Settles O19: the registers after reset, the sample words of the empty memory, and no interrupt cause. -/
theorem resetValues : Obligations.ResetValues := by
  refine ⟨rfl, fun p => ⟨?_, fun _ _ => rfl, rfl⟩⟩
  have hctrl : ctrlWord ctrlReset = 0#32 := by decide
  have hstatus : statusWord statusReset = 0#32 := by decide
  show [idWord, capWord p, ctrlWord ctrlReset, statusWord statusReset, 0#32, 0#32, 0#32, 0#32] = _
  rw [hctrl, hstatus]
  rfl

end Sys2Proof.Machine
end

section
/-! Scope: the host's window (20_memory.md). The accesses that are refused (R67, R73, R74), the effect of register writes and of
sample accesses, dropped ones included (R68, R70 to R74), the reserved offsets (R65), the interrupt output (R275), and the exits
from the fault state (R272, R300, R302). -/

namespace Sys2Proof.Machine

/-! Sample accesses (R71 to R74) -/

section SampleAccess

variable {s : State} {pl : Plane} {k : Nat}

/-- A sample read of a specified word while BUSY is 0 returns the stored pattern (R74). -/
theorem sampleRead_specified {v : Word} (hk : k < nmax s.params) (hb : s.status.busy = false) (hv : sampleAt s pl k = some v) :
    sampleRead pl k s = .next (pushRead v s) := by
  simp [sampleRead, Nat.not_le.2 hk, hb, hv]

/-- A sample read while BUSY or of an unspecified word returns a free value (R44, R72). -/
theorem sampleRead_free (hk : k < nmax s.params) (h : s.status.busy = true ∨ sampleAt s pl k = none) :
    sampleRead pl k s = .next (pushFree s) := by
  rw [sampleRead, if_neg (Nat.not_le.2 hk)]
  rcases h with hb | hnone
  · rw [if_pos hb]
  · simp [hnone]

theorem sampleWrite_locked (hk : k < nmax s.params) (hl : locked s = true) (v : Word) :
    sampleWrite pl k v s = .next (dropWrite s) := by
  rw [sampleWrite, if_neg (Nat.not_le.2 hk), if_pos hl]

theorem sampleWrite_idle (hk : k < nmax s.params) (hi : Idle s) (v : Word) :
    sampleWrite pl k v s = .next { s with mem := writeWords s.mem (sampleAddr s.params pl k) [some v] } := by
  simp [sampleWrite, Nat.not_le.2 hk, (locked_eq_false_iff s).2 hi]

/-- A sample index from `NMAX` up names no sample word (R74). -/
theorem sampleRead_refused_iff {r : Refusal} : sampleRead pl k s = .refused r ↔ r = .noSuchSample ∧ nmax s.params ≤ k := by
  unfold sampleRead
  split
  · rename_i hk
    simp [hk, eq_comm]
  · rename_i hk
    split
    · simp [hk]
    · split <;> simp [hk]

/-- A sample index from `NMAX` up names no sample word (R73). -/
theorem sampleWrite_refused_iff {v : Word} {r : Refusal} :
    sampleWrite pl k v s = .refused r ↔ r = .noSuchSample ∧ nmax s.params ≤ k := by
  unfold sampleWrite
  split
  · rename_i hk
    simp [hk, eq_comm]
  · rename_i hk
    split <;> simp [hk]

end SampleAccess

/-- Settles O44: BUSY and what the word holds decide between the stored pattern and a free value. -/
theorem sampleReadEffect : Obligations.SampleReadEffect := by
  intro s pl k hk
  exact ⟨fun v hb hv => sampleRead_specified hk hb hv, fun h => sampleRead_free hk h⟩

/-- The places of two sample words do not overlap (R64). -/
theorem sampleAddr_disjoint {p : Params} {q pl : Plane} {j k : Nat} (hj : j < nmax p) (hk : k < nmax p) (h : q ≠ pl ∨ j ≠ k) :
    sampleAddr p q j + 4 ≤ sampleAddr p pl k ∨ sampleAddr p pl k + 4 ≤ sampleAddr p q j := by
  unfold sampleAddr
  by_cases hplane : q = pl
  · have hjk : j ≠ k := h.resolve_left (not_not_intro hplane)
    subst hplane
    omega
  · rcases planeBase_disjoint (p := p) hplane with hbelow | habove <;> omega

/-- Settles O43: in the idle state the write of one word at the sample's place, which no other sample word shares. -/
theorem sampleWriteEffect : Obligations.SampleWriteEffect := by
  intro s pl k v hk
  refine ⟨fun hi => ⟨_, sampleWrite_idle hk hi v, rfl, ?stored, ?others, ?bytes, ?outside⟩, ?dropped⟩
  case stored => exact wordAt_writeWords_inside (i := 0) (by simp)
  case others =>
    intro q j hj hne
    exact wordAt_writeWords_outside (sampleAddr_disjoint hj hk hne)
  case bytes =>
    intro j hj
    exact byteAt_writeWords_inside (i := 0) (by simp) hj
  case outside =>
    intro a ha
    exact byteAt_writeWords_outside ha
  case dropped =>
    intro hnotIdle
    have hl : locked s = true := by rwa [← Bool.not_eq_false, locked_eq_false_iff]
    exact sampleWrite_locked hk hl v

/-! Register writes (R70, R71) -/

/-- The registers whose writes are dropped while BUSY or in the fault state (R71). -/
theorem regWrite_locked {r : Reg} {s : State} (hr : r = .cmd ∨ r = .lena ∨ r = .lenb) (hl : locked s = true) (v : Word) :
    regWrite r v s = .next (dropWrite s) := by
  rcases hr with rfl | rfl | rfl
  · exact issueCommand_locked hl
  · rw [regWrite, writeLena, if_pos hl]
  · rw [regWrite, writeLenb, if_pos hl]

theorem writeLena_idle {s : State} (hi : Idle s) (v : Word) : writeLena v s = { s with lena := v } := by
  simp [writeLena, (locked_eq_false_iff s).2 hi]

theorem writeLenb_idle {s : State} (hi : Idle s) (v : Word) : writeLenb v s = { s with lenb := v } := by
  simp [writeLenb, (locked_eq_false_iff s).2 hi]

/-- A write to CTRL with bit 0 set is the soft reset (R33, R225). -/
theorem hostOp_srst {v : Word} (hv : v.getLsbD 0 = true) (s : State) : hostOp (.wr .ctrl v) s = .next (softReset s) :=
  congrArg Host.Outcome.next (writeCtrl_reset hv s)

/-- A write to CTRL with bit 0 clear sets the enables (R33, R223). -/
theorem hostOp_enables {v : Word} (hv : v.getLsbD 0 = false) (s : State) :
    hostOp (.wr .ctrl v) s = .next { s with ctrl := { ieDone := v.getLsbD 1, ieErr := v.getLsbD 2 } } :=
  congrArg Host.Outcome.next (writeCtrl_enables hv s)

/-- Settles O42, register by register. -/
theorem droppedWrites : Obligations.DroppedWrites := by
  intro s v
  refine ⟨fun h => ?locked, fun hi => ?lengths, rfl, ?ignored, rfl, fun hv => hostOp_enables hv s, fun hv => hostOp_srst hv s⟩
  case locked =>
    have hl : locked s = true := (locked_eq_true_iff s).2 h
    exact ⟨fun r hr => regWrite_locked hr hl v, fun pl k hk => sampleWrite_locked hk hl v⟩
  case lengths => exact ⟨congrArg _ (writeLena_idle hi v), congrArg _ (writeLenb_idle hi v)⟩
  case ignored => rintro r (rfl | rfl | rfl) <;> rfl

/-! The interrupt output (R275) -/

@[simp] theorem irq_writeStatus (v : Word) (s : State) :
    irq (writeStatus v s) = ((s.status.done && !v.getLsbD 1 && s.ctrl.ieDone) || (s.status.err && s.ctrl.ieErr)) := rfl

/-- Acceptance clears the cause *done* (R217). -/
@[simp] theorem irq_accept (w : Word) (s : State) : irq (accept w s) = (s.status.err && s.ctrl.ieErr) := rfl

@[simp] theorem irq_softReset (s : State) : irq (softReset s) = false := rfl

@[simp] theorem irq_hardReset (s : State) : irq (hardReset s) = false := rfl

/-- A word that passes validation is a command that does (R266). -/
theorem exists_instr_of_validateWord {w : Word} {s : State} (h : validateWord w s = none) :
    ∃ i, decodeWord w = .ok i ∧ validate i s = none := by
  unfold validateWord at h
  split at h
  · rename_i i hd
    exact ⟨i, hd, h⟩
  · cases h

/-- Settles O49: the level by its definition, then each way a cause is cleared or masked. -/
theorem interruptLevel : Obligations.InterruptLevel := by
  intro s v
  refine ⟨by simp [irq], fun _ _ => rfl, ⟨_, rfl, rfl, rfl, fun hv => ?ack⟩, fun hi hvalid => ?accepted,
    fun hv => ⟨_, hostOp_enables hv s, rfl⟩, fun hv => ⟨_, hostOp_srst hv s, irq_softReset s⟩, ⟨_, rfl, irq_hardReset s⟩⟩
  case ack => rw [irq_writeStatus, hv, Bool.not_true, Bool.and_false, Bool.false_and, Bool.false_or]
  case accepted =>
    obtain ⟨i, hd, hv⟩ := exists_instr_of_validateWord hvalid
    exact ⟨_, (issueCommand_decoded hi hd).trans (exec_accept hi hv), by simp [hi.2]⟩

/-! Reserved offsets (R65) -/

/-- Below the first plane and above the last one the window holds nothing (R64, R65). -/
theorem targetOf_reserved {p : Params} {off : Nat}
    (h : (0x20 ≤ off ∧ off < planeBytes p) ∨ (5 * planeBytes p ≤ off ∧ off < 8 * planeBytes p)) :
    targetOf p off = .reserved := by
  have hplane := planeBytes_ge p
  rw [targetOf, if_neg (by omega)]
  rcases h with ⟨_, hbelow⟩ | ⟨habove, _⟩
  · rw [if_pos hbelow]
  · rw [if_neg (by omega), if_neg (by omega)]

theorem memRead_of_targetOf_reserved {s : State} {off : Nat} (hw : off < windowBytes s.params) (ha : off % 4 = 0)
    (ht : targetOf s.params off = .reserved) : hostOp (.memRead (windowBase s.params + off) 4) s = .next (pushRead 0#32 s) := by
  simp [hostOp, busRead, inWindow_base_add hw, isAlignedWord_base_add ha, ht]

theorem memWrite_of_targetOf_reserved {s : State} {off : Nat} (v : Word) (hw : off < windowBytes s.params) (ha : off % 4 = 0)
    (ht : targetOf s.params off = .reserved) : hostOp (.memWrite (windowBase s.params + off) 4 v) s = .next s := by
  simp [hostOp, busWrite, inWindow_base_add hw, isAlignedWord_base_add ha, ht]

/-- Settles O46, from what the window holds at a reserved offset. -/
theorem reservedOffsets : Obligations.ReservedOffsets := by
  intro s off v ha h
  have hw : off < windowBytes s.params := by
    rw [windowBytes]
    omega
  have ht := targetOf_reserved h
  exact ⟨memRead_of_targetOf_reserved hw ha ht, memWrite_of_targetOf_reserved v hw ha ht⟩

/-! Refused accesses (R67, R73, R74) -/

theorem inWindow_eq_true_iff {p : Params} {addr : Nat} :
    inWindow p addr = true ↔ windowBase p ≤ addr ∧ addr < windowBase p + windowBytes p := by
  simp [inWindow]

theorem isAlignedWord_eq_true_iff {addr size : Nat} : isAlignedWord addr size = true ↔ size = 4 ∧ addr % 4 = 0 := by
  simp [isAlignedWord]

/-- A bus access is bad outside the window, and inside it when it is no aligned word (R67). -/
theorem badAccess_memRead_iff {p : Params} {addr size : Nat} {r : Refusal} :
    BadAccess p (.memRead addr size) r ↔
      (r = .outsideWindow ∧ inWindow p addr = false) ∨
      (r = .notAnAlignedWord ∧ inWindow p addr = true ∧ isAlignedWord addr size = false) := by
  have hout : inWindow p addr = false ↔ addr < windowBase p ∨ windowBase p + windowBytes p ≤ addr := by
    rw [← Bool.not_eq_true, inWindow_eq_true_iff]
    omega
  have hbad : isAlignedWord addr size = false ↔ size ≠ 4 ∨ addr % 4 ≠ 0 := by
    rw [← Bool.not_eq_true, isAlignedWord_eq_true_iff]
    omega
  rw [inWindow_eq_true_iff, hout, hbad]
  simp [BadAccess, and_assoc]

/-- Reads and writes of the bus are bad alike. -/
theorem badAccess_memWrite_iff {p : Params} {addr size : Nat} {v : Word} {r : Refusal} :
    BadAccess p (.memWrite addr size v) r ↔ BadAccess p (.memRead addr size) r := by
  simp [BadAccess]

/-- A sample read is bad at an index from `NMAX` up (R74). -/
theorem badAccess_rs_iff {p : Params} {pl : Plane} {k : Nat} {r : Refusal} :
    BadAccess p (.rs pl k) r ↔ r = .noSuchSample ∧ nmax p ≤ k := by
  constructor
  · rintro (⟨_, _, ⟨⟨⟩⟩ | ⟨_, ⟨⟩⟩, _⟩ | ⟨_, _, ⟨⟨⟩⟩ | ⟨_, ⟨⟩⟩, hbad⟩)
    exact hbad
  · exact fun hbad => .inr ⟨pl, k, .inl rfl, hbad⟩

/-- A sample write is bad at an index from `NMAX` up (R73). -/
theorem badAccess_ws_iff {p : Params} {pl : Plane} {k : Nat} {v : Word} {r : Refusal} :
    BadAccess p (.ws pl k v) r ↔ r = .noSuchSample ∧ nmax p ≤ k := by
  constructor
  · rintro (⟨_, _, ⟨⟨⟩⟩ | ⟨_, ⟨⟩⟩, _⟩ | ⟨_, _, ⟨⟨⟩⟩ | ⟨_, ⟨⟩⟩, hbad⟩)
    exact hbad
  · exact fun hbad => .inr ⟨pl, k, .inr ⟨v, rfl⟩, hbad⟩

/-- The two checks of a bus access whose transaction `x` refuses nothing itself: outside the window is checked first (log 8). -/
theorem busChecks_refused_iff {p : Params} {addr size : Nat} {r : Refusal} {x : Host.Outcome State Fault Refusal}
    (hx : x ≠ .refused r) :
    (if !inWindow p addr then .refused .outsideWindow
      else if !isAlignedWord addr size then .refused .notAnAlignedWord else x) = .refused r ↔
    BadAccess p (.memRead addr size) r := by
  rw [badAccess_memRead_iff]
  cases inWindow p addr with
  | false => simp [@eq_comm _ r]
  | true =>
    cases isAlignedWord addr size with
    | false => simp [@eq_comm _ r]
    | true => simp [hx]

/-- A sample the window names is below `NMAX`, so a bus read is refused by the two checks alone. -/
theorem busRead_refused_iff {addr size : Nat} {s : State} {r : Refusal} :
    busRead addr size s = .refused r ↔ BadAccess s.params (.memRead addr size) r := by
  refine busChecks_refused_iff ?_
  split
  · simp
  · rename_i ht
    have hk := targetOf_sample_lt ht
    rw [Ne, sampleRead_refused_iff]
    omega
  · simp

theorem regWrite_not_refused (reg : Reg) (v : Word) (s : State) (r : Refusal) : regWrite reg v s ≠ .refused r := by
  obtain ⟨t, ht⟩ := regWrite_answers reg v s
  simp [ht]

theorem busWrite_refused_iff {addr size : Nat} {v : Word} {s : State} {r : Refusal} :
    busWrite addr size v s = .refused r ↔ BadAccess s.params (.memRead addr size) r := by
  refine busChecks_refused_iff ?_
  split
  · exact regWrite_not_refused _ v s r
  · rename_i ht
    have hk := targetOf_sample_lt ht
    rw [Ne, sampleWrite_refused_iff]
    omega
  · simp

/-- The host's operation is refused exactly when it is a bad access. -/
theorem hostOp_refused_iff {op : HostOp} {s : State} {r : Refusal} :
    hostOp op s = .refused r ↔ BadAccess s.params op r := by
  cases op with
  | wr reg v => simp [hostOp, regWrite_not_refused, BadAccess]
  | rs pl k => exact sampleRead_refused_iff.trans badAccess_rs_iff.symm
  | ws pl k v => exact sampleWrite_refused_iff.trans badAccess_ws_iff.symm
  | memRead addr size => exact busRead_refused_iff
  | memWrite addr size v => exact busWrite_refused_iff.trans badAccess_memWrite_iff.symm
  | _ => simp [hostOp, BadAccess]

theorem engineTurn_not_refused (s : State) (r : Refusal) : engineTurn s ≠ .refused r := by
  unfold engineTurn
  split
  · split
    · exact exec_not_refused _ s r
    · simp
  · simp

/-- Settles O27: the engine refuses nothing, and the host's turn is its next operation. -/
theorem refusalsAreBadAccesses : Obligations.RefusalsAreBadAccesses := by
  intro s r
  cases hn : nextAgent s with
  | engine => simp [step_engine hn, engineTurn_not_refused]
  | host =>
    cases hs : s.script with
    | nil => simp [step_host hn, hostTurn, hs]
    | cons op rest => simp [step_host_cons hn hs, hostOp_refused_iff]

/-! Exits from the fault state (R272) -/

/-- A bus access that is not refused is one of an aligned word of the window (R64, R67). -/
theorem exists_offset_of_not_badAccess {p : Params} {addr size : Nat} (h : ∀ r, ¬BadAccess p (.memRead addr size) r) :
    ∃ off, off < windowBytes p ∧ off % 4 = 0 ∧ addr = windowBase p + off ∧ size = 4 := by
  have hbase := windowBase_aligned p
  have hin : inWindow p addr = true :=
    eq_true_of_ne_false fun hout => h .outsideWindow (badAccess_memRead_iff.2 (.inl ⟨rfl, hout⟩))
  have hword : isAlignedWord addr size = true :=
    eq_true_of_ne_false fun hbad => h .notAnAlignedWord (badAccess_memRead_iff.2 (.inr ⟨rfl, hin, hbad⟩))
  obtain ⟨hlo, hhi⟩ := inWindow_eq_true_iff.1 hin
  obtain ⟨hsize, haligned⟩ := isAlignedWord_eq_true_iff.1 hword
  exact ⟨addr - windowBase p, by omega, by omega, by omega, hsize⟩

/-- No command is in flight in the fault state (R26). -/
theorem busy_eq_false_of_err {f : Status} (hf : FlagsOk f) (he : f.err = true) : f.busy = false :=
  Bool.eq_false_iff.2 fun hb => hf.busyErr ⟨hb, he⟩

section Fault

variable {s t : State} (he : s.status.err = true) (ht : t.status.err = false)
include he ht

/-- An operation that leaves the unit as it is leaves the fault state standing. -/
theorem not_sameUnit_of_err_cleared : ¬SameUnit s t := by
  intro hst
  simp [hst.status, he] at ht

/-- The one register write that clears ERR is the soft reset (R33, R34, R272). -/
theorem regWrite_clears_err {r : Reg} {v : Word} (h : regWrite r v s = .next t) :
    r = .ctrl ∧ v.getLsbD 0 = true ∧ t = softReset s := by
  have hl : locked s = true := (locked_eq_true_iff s).2 (.inr he)
  have hkept : t.status.err ≠ s.status.err := by simp [he, ht]
  cases r with
  | ctrl =>
    injection h with h
    cases hv : v.getLsbD 0 with
    | true => exact ⟨rfl, rfl, h ▸ writeCtrl_reset hv s⟩
    | false => exact absurd (by rw [← h, writeCtrl_enables hv]) hkept
  | status => injection h with h; exact absurd (h ▸ rfl) hkept
  | id | cap | errinfo => injection h with h; exact absurd (h ▸ rfl) hkept
  | cmd | lena | lenb =>
    rw [regWrite_locked (by simp) hl] at h
    injection h with h
    exact absurd (h ▸ rfl) hkept

/-- In the fault state a sample write is dropped (R71). -/
theorem sampleWrite_ne_next_of_err_cleared {pl : Plane} {k : Nat} {v : Word} : sampleWrite pl k v s ≠ .next t := by
  intro h
  have hl : locked s = true := (locked_eq_true_iff s).2 (.inr he)
  have hk : k < nmax s.params := by
    refine Nat.lt_of_not_le fun hk => ?_
    rw [sampleWrite_refused_iff.2 ⟨rfl, hk⟩] at h
    cases h
  rw [sampleWrite_locked hk hl] at h
  injection h with h
  simp [← h, he] at ht

/-- The one bus write that clears ERR is the soft reset, by the address of CTRL (R64, R66). -/
theorem busWrite_clears_err {addr size : Nat} {v : Word} (h : busWrite addr size v s = .next t) :
    addr = windowBase s.params + 0x08 ∧ size = 4 ∧ v.getLsbD 0 = true ∧ t = softReset s := by
  have hgood (r : Refusal) : ¬BadAccess s.params (.memRead addr size) r := by
    rw [← busWrite_refused_iff (v := v), h]
    simp
  obtain ⟨off, hw, ha, rfl, rfl⟩ := exists_offset_of_not_badAccess hgood
  change hostOp (.memWrite (windowBase s.params + off) 4 v) s = .next t at h
  cases htarget : targetOf s.params off with
  | reg r =>
    rw [memWrite_of_targetOf_reg v hw ha htarget] at h
    obtain ⟨rfl, hv, hreset⟩ := regWrite_clears_err he ht h
    exact ⟨congrArg _ (targetOf_reg_eq ha htarget), rfl, hv, hreset⟩
  | sample pl k =>
    rw [memWrite_of_targetOf_sample v hw ha htarget] at h
    exact absurd h (sampleWrite_ne_next_of_err_cleared he ht)
  | reserved =>
    rw [memWrite_of_targetOf_reserved v hw ha htarget] at h
    injection h with h
    exact absurd (h ▸ SameUnit.refl s) (not_sameUnit_of_err_cleared he ht)

/-- An operation of the host that clears ERR is one of the two resets (R272). -/
theorem hostOp_clears_err {op : HostOp} (h : hostOp op s = .next t) :
    ((∃ v : Word, v.getLsbD 0 = true ∧ (op = .wr .ctrl v ∨ op = .memWrite (windowBase s.params + 0x08) 4 v)) ∧
        t = softReset s) ∨
      (op = .reset ∧ t = hardReset s) := by
  have hchanged := not_sameUnit_of_err_cleared he ht
  cases op with
  | wr r v =>
    obtain ⟨rfl, hv, hreset⟩ := regWrite_clears_err he ht h
    exact .inl ⟨⟨v, hv, .inl rfl⟩, hreset⟩
  | memWrite addr size v =>
    obtain ⟨rfl, rfl, hv, hreset⟩ := busWrite_clears_err he ht h
    exact .inl ⟨⟨v, hv, .inr rfl⟩, hreset⟩
  | reset => injection h with h; exact .inr ⟨rfl, h.symm⟩
  | ws pl k v => exact absurd h (sampleWrite_ne_next_of_err_cleared he ht)
  | rs pl k => exact absurd (sampleRead_same h) hchanged
  | memRead addr size => exact absurd (busRead_same h) hchanged
  | rd r => injection h with h; exact absurd (h ▸ sameUnit_pushRead _ s) hchanged
  | wait => injection h with h; exact absurd (h ▸ sameUnit_waitPoll s) hchanged
  | abortIfErr => injection h with h; exact absurd (h ▸ sameUnit_abortIfErr s) hchanged
  | abortIfLensDiffer => injection h with h; exact absurd (h ▸ sameUnit_abortIfLensDiffer s) hchanged
  | returnOutput n => injection h with h; exact absurd (h ▸ ⟨rfl, rfl, rfl, rfl, rfl, rfl, rfl, rfl⟩) hchanged
  | convolve a b => injection h with h; exact absurd (h ▸ sameUnit_convolve a b s) hchanged

/-- With legal flags the engine has no step in the fault state, so a step that clears ERR is an operation of the host. -/
theorem exists_hostOp_of_step_clears_err (hf : FlagsOk s.status) (h : step s = .next t) :
    nextAgent s = .host ∧ ∃ op rest, s.script = op :: rest ∧ hostOp op { passTurn s with script := rest } = .next t := by
  have hb : s.status.busy = false := busy_eq_false_of_err hf he
  have hchanged : ¬SameUnit s t := not_sameUnit_of_err_cleared he ht
  cases hn : nextAgent s with
  | engine =>
    rw [step_engine hn, engineTurn_idle (s := passTurn s) hb] at h
    injection h with h
    exact absurd (h ▸ sameUnit_passTurn s) hchanged
  | host =>
    cases hs : s.script with
    | nil =>
      rw [step_host hn, hostTurn, passTurn_script, hs] at h
      injection h with h
      exact absurd (h ▸ sameUnit_passTurn s) hchanged
    | cons op rest => exact ⟨rfl, op, rest, rfl, step_host_cons hn hs ▸ h⟩

end Fault

/-- Settles O18: what can clear ERR, and what each of the two resets leaves. -/
theorem faultStateExits : Obligations.FaultStateExits := by
  refine ⟨?only, ?soft, ?hard⟩
  case only =>
    intro s t hf he hstep ht
    obtain ⟨hn, op, rest, hs, hop⟩ := exists_hostOp_of_step_clears_err he ht hf hstep
    exact ⟨hn, op, rest, hs, hostOp_clears_err (s := { passTurn s with script := rest }) he ht hop⟩
  case soft =>
    intro s v hf he hv
    have hb : s.status.busy = false := busy_eq_false_of_err hf he
    have hbus := memWrite_of_targetOf_reg v (regOffset_lt_windowBytes s.params .ctrl) rfl (targetOf_reg s.params .ctrl)
    exact ⟨softReset s, hostOp_srst hv s, hbus.trans (hostOp_srst hv s), rfl, rfl, rfl, rfl, abandonOperand_idle hb⟩
  case hard =>
    intro s _
    exact ⟨hardReset s, rfl, rfl, rfl, rfl, rfl, fun _ _ => rfl⟩

end Sys2Proof.Machine
end

section
/-! Scope: the encoding (30_encoding.md). The opcode table (R95), the two round trips between command words and well-formed
instructions (R91, R92, R96, R97, R100), and words of the spec's list (R101). -/

namespace Sys2Proof.Machine

/-! The opcode table (R95) -/

/-- Two rows hit by one word agree on the bits both masks test. -/
theorem agree_on_common_mask {w : Word} {q r : Word × Word} (hq : w &&& q.1 = q.2) (hr : w &&& r.1 = r.2) :
    q.2 &&& r.1 = r.2 &&& q.1 := by
  rw [← hq, ← hr, BitVec.and_assoc, BitVec.and_assoc, BitVec.and_comm q.1]

/-- Any two rows of the table differ on a bit both masks test: their opcodes differ. -/
theorem opcodeRows_pairwise_differ : opcodeRows.Pairwise fun q r => q.2 &&& r.1 ≠ r.2 &&& q.1 := by decide

/-- A word a row hits is the row's match together with the word's bits outside the mask. -/
theorem match_or_free_bits {row : Word × Word} {w : Word} (h : rowHit row w = true) : row.2 ||| w &&& ~~~row.1 = w := by
  have hw : w &&& row.1 = row.2 := eq_of_beq h
  rw [← hw, ← BitVec.and_or_distrib_left, BitVec.or_not_self, BitVec.and_allOnes]

/-! What the encoder puts in each operand field of R91 is what the word read there holds (R92, R93) -/

/-- A one-bit field put back in its place is the word masked to that bit. -/
theorem ite_getLsbD_shiftLeft (w : Word) (k : Nat) :
    (if w.getLsbD k then 1#32 else 0#32) <<< k = w &&& BitVec.twoPow 32 k := by
  rw [BitVec.and_twoPow]
  split
  · rfl
  · exact BitVec.zero_shiftLeft k

theorem bufBit_bufAt_shiftLeft (w : Word) (k : Nat) : bufBit (bufAt w k) <<< k = w &&& BitVec.twoPow 32 k := by
  rw [← ite_getLsbD_shiftLeft, bufAt, apply_ite bufBit]
  rfl

theorem invBit_invAt_shiftLeft (w : Word) : invBit (invAt w) <<< 7 = w &&& BitVec.twoPow 32 7 := by
  rw [← ite_getLsbD_shiftLeft, invAt, apply_ite invBit]
  rfl

/-- STG put back in its place is the word masked to bits 12:8 (R91). -/
theorem ofNat_stgAt_shiftLeft (w : Word) : BitVec.ofNat 32 (stgAt w) <<< 8 = w &&& 0x1F00#32 := by
  have hfield : BitVec.ofNat 32 (stgAt w) = w >>> 8 &&& 0x1F#32 := by
    apply BitVec.eq_of_toNat_eq
    rw [BitVec.toNat_and, BitVec.toNat_ofNat, stgAt, Nat.mod_eq_of_lt (by omega)]
    exact (Nat.and_two_pow_sub_one_eq_mod _ 5).symm
  rw [hfield, BitVec.shiftLeft_and_distrib, BitVec.shiftLeft_ushiftRight, BitVec.and_assoc]
  rfl

/-! The two round trips -/

/-- A word decodes to an instruction by the row that hits it, with the operands its fields hold (R96). -/
inductive DecodesBy (w : Word) : Instr → Prop
  | fft (h : rowHit rowFft w = true) : DecodesBy w (.fft (bufAt w 4))
  | ifft (h : rowHit rowIfft w = true) : DecodesBy w (.ifft (bufAt w 4))
  | cmul (h : rowHit rowCmul w = true) : DecodesBy w (.cmul (bufAt w 4) (bufAt w 5) (bufAt w 6))
  | bitrev (h : rowHit rowBitrev w = true) : DecodesBy w (.bitrev (bufAt w 4))
  | bfstg (h : rowHit rowBfstg w = true) : DecodesBy w (.bfstg (bufAt w 4) (stgAt w) (invAt w))
  | scale (h : rowHit rowScale w = true) : DecodesBy w (.scale (bufAt w 4))
  | magph (h : rowHit rowMagph w = true) : DecodesBy w (.magph (bufAt w 4) (bufAt w 5))

theorem decodesBy_of_decodeWord {w : Word} {i : Instr} (h : decodeWord w = .ok i) : DecodesBy w i := by
  unfold decodeWord at h
  repeat' split at h
  all_goals cases h
  · exact .fft ‹_›
  · exact .ifft ‹_›
  · exact .cmul ‹_›
  · exact .bitrev ‹_›
  · exact .bfstg ‹_›
  · exact .scale ‹_›
  · exact .magph ‹_›

/-- The match of the row and the operand fields are all of the word: the fields are the bits the mask leaves free. -/
theorem encode_of_decodesBy {w : Word} {i : Instr} (h : DecodesBy w i) : encode i = w := by
  cases h with
  | fft h | ifft h | bitrev h | scale h =>
    rw [encode, bufBit_bufAt_shiftLeft]
    exact match_or_free_bits h
  | cmul h | magph h =>
    simp only [encode, bufBit_bufAt_shiftLeft, BitVec.or_assoc, ← BitVec.and_or_distrib_left]
    exact match_or_free_bits h
  | bfstg h =>
    simp only [encode, bufBit_bufAt_shiftLeft, invBit_invAt_shiftLeft, ofNat_stgAt_shiftLeft, BitVec.or_assoc,
      ← BitVec.and_or_distrib_left]
    exact match_or_free_bits h

/-- Settles O1, by the round trip of each command word. -/
theorem decodeOfEncode : Obligations.DecodeOfEncode := fun _ h => decodeWord_encode h

/-- Settles O2: the row hit fixes the bits under its mask, the operand fields the others. -/
theorem encodeOfDecode : Obligations.EncodeOfDecode := fun _ _ h =>
  ⟨encode_of_decodesBy (decodesBy_of_decodeWord h), wellFormed_of_decodeWord h⟩

/-- Settles O3: a word that two rows match makes them agree where both masks test, and no two rows do. -/
theorem opcodeRowsDisjoint : Obligations.OpcodeRowsDisjoint :=
  ⟨rfl, fun _ => opcodeRows_pairwise_differ.imp fun hdiffer ⟨hq, hr⟩ => hdiffer (agree_on_common_mask hq hr)⟩

/-- Settles O4, by decoding the nine words. -/
theorem specWordsDecode : Obligations.SpecWordsDecode := ⟨rfl, rfl, rfl, rfl, rfl, rfl, rfl, rfl, rfl⟩

end Sys2Proof.Machine
end

section
/-! Scope: the datapath primitives (40_datapath_primitives.md). Arithmetic on special operands, its commutativity, rounding and
the division by the length (R121 to R131, R167), the twiddle ROM (R134 to R136, R142), bit reversal and the pass of swaps (R137,
R139), the butterflies of a stage (R132, R133, R138), and the results of SCALE, BFSTG, FFT, IFFT and CMUL (R160 to R168, R190). -/

namespace Sys2Proof.Machine

/-! Special operands of the arithmetic (R123 to R129) -/

/-- Inverting bit 31 leaves the exponent and the fraction. -/
theorem flipSign_toNat_mod (w : Word) : (flipSign w).toNat % 2 ^ 31 = w.toNat % 2 ^ 31 := by
  rw [flipSign, BitVec.toNat_xor, Nat.xor_mod_two_pow]
  exact Nat.xor_zero _

theorem expField_eq (w : Word) : expField w = w.toNat % 2 ^ 31 / 2 ^ 23 := by
  rw [expField]
  omega

theorem fracField_eq (w : Word) : fracField w = w.toNat % 2 ^ 31 % 2 ^ 23 := by
  rw [fracField]
  omega

@[simp] theorem isInf_flipSign (w : Word) : isInf (flipSign w) = isInf w := by
  simp only [isInf, expField_eq, fracField_eq, flipSign_toNat_mod]

@[simp] theorem isNaN_flipSign (w : Word) : isNaN (flipSign w) = isNaN w := by
  simp only [isNaN, expField_eq, fracField_eq, flipSign_toNat_mod]

@[simp] theorem signBit_flipSign (w : Word) : signBit (flipSign w) = !signBit w := by
  simp [signBit, flipSign]

theorem signBit_eq (w : Word) : signBit w = decide (2 ^ 31 ≤ w.toNat) := BitVec.msb_eq_decide w

/-- The exponent and fraction fields of a zero of either sign. -/
theorem fields_of_isZero {w : Word} (h : isZero w = true) : expField w = 0 ∧ fracField w = 0 := by
  have hw : w.toNat % 2 ^ 31 = 0 := eq_of_beq h
  rw [expField_eq, fracField_eq, hw]
  exact ⟨rfl, rfl⟩

theorem isNaN_of_isInf {w : Word} (h : isInf w = true) : isNaN w = false := by
  simp_all [isInf, isNaN]

theorem isNaN_of_isZero {w : Word} (h : isZero w = true) : isNaN w = false := by
  simp [isNaN, fields_of_isZero h]

theorem isInf_of_isZero {w : Word} (h : isZero w = true) : isInf w = false := by
  simp [isInf, fields_of_isZero h]

theorem isZero_of_isInf {w : Word} (h : isInf w = true) : isZero w = false :=
  Bool.eq_false_iff.2 fun hz => by simp [isInf_of_isZero hz] at h

/-- An invalid sum: infinities of opposite signs (R124). -/
theorem fadd_inf_inf {a b : Word} (ha : isInf a = true) (hb : isInf b = true) (h : signBit a ≠ signBit b) :
    fadd a b = qNaN := by
  simp [fadd, ha, hb, h]

/-- Settles O53, operation by operation. -/
theorem nanCanonical : Obligations.NanCanonical := by
  intro a b
  refine ⟨fun h => ?nan, fun h => ?unary, fun ha hb => ?infinities, fun ha hb => ?zeroInf, fun ha hb => ?zeros,
    fun hs hz => ?root⟩
  case nan => rcases h with h | h <;> simp [fadd, fsub, fmul, fdiv, h, qNaN]
  case unary => simp [fneg, fsqrt, h, qNaN]
  case infinities =>
    refine ⟨?_, fadd_inf_inf ha hb, fun hs => ?_⟩
    · simp [fdiv, isNaN_of_isInf, ha, hb, qNaN]
    · have hdiff : fadd a (flipSign b) = qNaN := fadd_inf_inf ha (by simpa using hb) (by simp [hs])
      rw [fsub, hdiff, ite_self, qNaN]
  case zeroInf => simp [fmul, ha, hb, qNaN]
  case zeros => simp [fdiv, isNaN_of_isZero, isInf_of_isZero, ha, hb, qNaN]
  case root => simp [fsqrt, hs, hz, qNaN]

/-! Commutativity (R131) -/

/-- Two infinities of one sign are one pattern. -/
theorem eq_of_isInf {a b : Word} (ha : isInf a = true) (hb : isInf b = true) (h : signBit a = signBit b) : a = b := by
  have hsign : 2 ^ 31 ≤ a.toNat ↔ 2 ^ 31 ≤ b.toNat := by simpa [signBit_eq] using h
  simp only [isInf, expField_eq, fracField_eq, Bool.and_eq_true, beq_iff_eq] at ha hb
  refine BitVec.eq_of_toNat_eq ?_
  omega

theorem fmul_comm (a b : Word) : fmul a b = fmul b a := by
  simp only [fmul, Bool.or_comm (isNaN a), Bool.or_comm (isInf a), Bool.or_comm (isZero a), Nat.mul_comm (magnitude a),
    bne_comm (a := signBit a)]

theorem fadd_comm (a b : Word) : fadd a b = fadd b a := by
  cases ha : isInf a <;> cases hb : isInf b
  case true.true =>
    by_cases hs : signBit a = signBit b
    · rw [eq_of_isInf ha hb hs]
    · rw [fadd_inf_inf ha hb hs, fadd_inf_inf hb ha (Ne.symm hs)]
  all_goals simp [fadd, ha, hb, Bool.or_comm (isNaN a), Int.add_comm (signedUnits a), Bool.and_comm (signBit a)]

theorem lift2_comm {f : Word → Word → Word} (hf : ∀ a b, f a b = f b a) (x y : Sample) : lift2 f x y = lift2 f y x := by
  cases x <;> cases y <;> simp [lift2, hf]

/-- Settles O54: the four products commute, and so does the sum of the two in the imaginary part. -/
theorem cmulCommutes : Obligations.CmulCommutes := by
  intro x y
  simp only [cmul, lift2_comm fmul_comm y.re, lift2_comm fmul_comm y.im]
  rw [lift2_comm fadd_comm]

/-! Rounding (R121, R122) -/

/-- Exponent and fraction fields added up as in `roundBody`: the value is `m · 2^sh`, the carry `m = 2^24` included. -/
theorem magnitude_body {sh m : Nat} (hm : m ≤ 2 ^ 24) (hnorm : sh = 0 ∨ 2 ^ 23 ≤ m) (hfin : sh * 2 ^ 23 + m < 0x7F800000) :
    magnitude (BitVec.ofNat 32 (sh * 2 ^ 23 + m)) = m * 2 ^ sh := by
  have hnat : (BitVec.ofNat 32 (sh * 2 ^ 23 + m)).toNat = sh * 2 ^ 23 + m := by
    rw [BitVec.toNat_ofNat, Nat.mod_eq_of_lt (by omega)]
  rw [magnitude, expField, fracField, hnat]
  rcases Nat.lt_or_ge m (2 ^ 23) with hsub | hnormal
  · obtain rfl : sh = 0 := by omega
    rw [if_pos (by omega)]
    omega
  · rcases Nat.eq_or_lt_of_le hm with rfl | hlt
    · rw [if_neg (by omega), show (sh * 2 ^ 23 + 2 ^ 24) % 2 ^ 23 = 0 by omega,
        show (sh * 2 ^ 23 + 2 ^ 24) / 2 ^ 23 % 256 - 1 = sh + 1 by omega, Nat.pow_succ']
      omega
    · rw [if_neg (by omega), show (sh * 2 ^ 23 + m) / 2 ^ 23 % 256 - 1 = sh by omega,
        show 2 ^ 23 + (sh * 2 ^ 23 + m) % 2 ^ 23 = m by omega]

/-- Every finite magnitude's pattern has this form. -/
theorem exists_body (c : Nat) : ∃ sh m, c = sh * 2 ^ 23 + m ∧ m < 2 ^ 24 ∧ (sh = 0 ∨ 2 ^ 23 ≤ m) :=
  ⟨c / 2 ^ 23 - 1, c - (c / 2 ^ 23 - 1) * 2 ^ 23, by omega, by omega, by omega⟩

theorem magnitude_lt_succ {c : Nat} (hc : c + 1 < 0x7F800000) :
    magnitude (BitVec.ofNat 32 c) < magnitude (BitVec.ofNat 32 (c + 1)) := by
  obtain ⟨sh, m, hbody, hm, hnorm⟩ := exists_body c
  have hlow : magnitude (BitVec.ofNat 32 (sh * 2 ^ 23 + m)) = m * 2 ^ sh := magnitude_body (by omega) hnorm (by omega)
  have hhigh : magnitude (BitVec.ofNat 32 (sh * 2 ^ 23 + (m + 1))) = (m + 1) * 2 ^ sh :=
    magnitude_body (by omega) (by omega) (by omega)
  rw [← Nat.add_assoc, ← hbody] at hhigh
  rw [← hbody] at hlow
  rw [hlow, hhigh]
  exact Nat.mul_lt_mul_of_pos_right (Nat.lt_succ_self m) (Nat.two_pow_pos sh)

/-- The finite magnitudes grow with their patterns. -/
theorem magnitude_strictMono {c c' : Nat} (h : c < c') (hc : c' < 0x7F800000) :
    magnitude (BitVec.ofNat 32 c) < magnitude (BitVec.ofNat 32 c') := by
  induction c' with
  | zero => omega
  | succ k ih =>
    have hstep := magnitude_lt_succ hc
    rcases Nat.eq_or_lt_of_le (Nat.le_of_lt_succ h) with rfl | hlt
    · exact hstep
    · exact Nat.lt_trans (ih hlt (by omega)) hstep

/-- `num / den` lies `r` above the multiple `m` of the unit in the last place `2^sh`. -/
structure Located (num den sh m r : Nat) : Prop where
  value : num = m * (den * 2 ^ sh) + r
  rest : r < den * 2 ^ sh
  significand : m < 2 ^ 24
  normal : sh = 0 ∨ 2 ^ 23 ≤ m

/-- The rounding goes up: past the half, or to the even neighbour at the half. -/
def roundsUp (d m r : Nat) : Nat := if d < 2 * r ∨ (2 * r = d ∧ m % 2 = 1) then 1 else 0

theorem roundsUp_le_one (d m r : Nat) : roundsUp d m r ≤ 1 := by
  unfold roundsUp
  split <;> omega

/-- What `roundBody` computes: it locates the fraction and goes to the nearer end, infinity being the largest result. -/
theorem exists_located {num den : Nat} (hden : 0 < den) : ∃ sh m r, Located num den sh m r ∧
    roundBody num den = min (sh * 2 ^ 23 + m + roundsUp (den * 2 ^ sh) m r) 0x7F800000 := by
  let q := num / den
  let sh := q.log2 - 23
  have hd : 0 < den * 2 ^ sh := Nat.mul_pos hden (Nat.two_pow_pos sh)
  have hm : num / (den * 2 ^ sh) = q / 2 ^ sh := (Nat.div_div_eq_div_mul ..).symm
  refine ⟨sh, num / (den * 2 ^ sh), num % (den * 2 ^ sh), ⟨?_, Nat.mod_lt _ hd, ?_, ?_⟩, rfl⟩
  · rw [Nat.mul_comm, Nat.div_add_mod]
  · have hq : q < 2 ^ (24 + sh) := Nat.lt_of_lt_of_le Nat.lt_log2_self (Nat.pow_le_pow_right (by omega) (by omega))
    rw [hm]
    exact Nat.div_lt_of_lt_mul (by rwa [← Nat.pow_add, Nat.add_comm])
  · refine (Nat.eq_zero_or_pos sh).imp_right fun hpos => ?_
    have hq : 2 ^ (23 + sh) ≤ q := by
      have hne : q ≠ 0 := by
        intro h0
        simp [sh, h0] at hpos
      rw [show 23 + sh = q.log2 by omega]
      exact Nat.log2_self_le hne
    rw [hm, Nat.le_div_iff_mul_le (Nat.two_pow_pos sh), ← Nat.pow_add]
    exact hq

section Located

variable {num den sh m r : Nat} (h : Located num den sh m r)
include h

/-- The result overflows from half a unit in the last place above the largest finite magnitude. -/
theorem overflow_iff :
    0x7F800000 ≤ sh * 2 ^ 23 + m + roundsUp (den * 2 ^ sh) m r ↔ (2 ^ 25 - 1) * 2 ^ 252 * den ≤ num := by
  obtain ⟨hvalue, hrest, hsig, hnorm⟩ := h
  obtain ⟨D, hD⟩ : ∃ D, D = den * 2 ^ 252 := ⟨_, rfl⟩
  have hunit {e : Nat} (k : Nat) (he : e = 252 + k) : den * 2 ^ e = D * 2 ^ k := by
    rw [hD, he, Nat.pow_add, Nat.mul_assoc]
  rw [Nat.mul_assoc, Nat.mul_comm (2 ^ 252), ← hD]
  rcases Nat.lt_trichotomy sh 253 with hlow | rfl | hhigh
  · have hd : den * 2 ^ sh ≤ D := hD ▸ Nat.mul_le_mul_left _ (Nat.pow_le_pow_right (by omega) (by omega))
    have hle : (m + 1) * (den * 2 ^ sh) ≤ 2 ^ 24 * (den * 2 ^ sh) := Nat.mul_le_mul_right _ hsig
    have hup := roundsUp_le_one (den * 2 ^ sh) m r
    rw [Nat.succ_mul] at hle
    omega
  · rw [hunit 1 rfl] at hvalue hrest ⊢
    rcases Nat.lt_or_ge m (2 ^ 24 - 1) with hlt | hge
    · have hle : (m + 1) * (D * 2 ^ 1) ≤ (2 ^ 24 - 1) * (D * 2 ^ 1) := Nat.mul_le_mul_right _ hlt
      have hup := roundsUp_le_one (D * 2 ^ 1) m r
      rw [Nat.succ_mul] at hle
      omega
    · obtain rfl : m = 2 ^ 24 - 1 := by omega
      unfold roundsUp
      split <;> omega
  · obtain ⟨k, rfl⟩ : ∃ k, sh = 252 + (2 + k) := ⟨sh - 254, by omega⟩
    have hle : 2 ^ 23 * (D * 2 ^ 2) ≤ m * (den * 2 ^ (252 + (2 + k))) := by
      rw [hunit (2 + k) rfl]
      exact Nat.mul_le_mul (by omega) (Nat.mul_le_mul_left _ (Nat.pow_le_pow_right (by omega) (by omega)))
    omega

/-- A finite result is no further away than any other finite magnitude, and even where another is equally near: the patterns
below and above it have magnitudes outside the unit in the last place that holds the fraction. -/
theorem nearest_even (hden : 0 < den) {b c : Nat} (hb : b = sh * 2 ^ 23 + m + roundsUp (den * 2 ^ sh) m r)
    (hbfin : b < 0x7F800000) (hc : c < 0x7F800000) (hne : c ≠ b) :
    ((num : Int) - magnitude (BitVec.ofNat 32 b) * den).natAbs ≤ ((num : Int) - magnitude (BitVec.ofNat 32 c) * den).natAbs ∧
    (((num : Int) - magnitude (BitVec.ofNat 32 b) * den).natAbs = ((num : Int) - magnitude (BitVec.ofNat 32 c) * den).natAbs →
      b % 2 = 0) := by
  obtain ⟨hvalue, hrest, hsig, hnorm⟩ := h
  have hstrict {x y : Nat} (hxy : x < y) (hy : y < 0x7F800000) :
      magnitude (BitVec.ofNat 32 x) * den < magnitude (BitVec.ofNat 32 y) * den :=
    Nat.mul_lt_mul_of_pos_right (magnitude_strictMono hxy hy) hden
  have hmono {x y : Nat} (hxy : x ≤ y) (hy : y < 0x7F800000) :
      magnitude (BitVec.ofNat 32 x) * den ≤ magnitude (BitVec.ofNat 32 y) * den := by
    rcases Nat.eq_or_lt_of_le hxy with rfl | hlt
    · exact Nat.le_refl _
    · exact Nat.le_of_lt (hstrict hlt hy)
  have hend {x k : Nat} (hk : k ≤ 1) (hx : x = sh * 2 ^ 23 + m + k) (hf : x < 0x7F800000) :
      magnitude (BitVec.ofNat 32 x) * den = m * (den * 2 ^ sh) + k * (den * 2 ^ sh) := by
    rw [Nat.add_assoc] at hx
    rw [hx, magnitude_body (by omega) (by omega) (hx ▸ hf), Nat.mul_assoc, Nat.mul_comm (2 ^ sh), Nat.add_mul]
  unfold roundsUp at hb
  simp only [← Int.natCast_mul]
  split at hb
  · have htop := hend (k := 1) (by omega) hb hbfin
    rcases Nat.lt_or_gt_of_ne hne with hlt | hgt
    · have hbottom := hend (x := b - 1) (k := 0) (by omega) (by omega) (by omega)
      have hbelow := hmono (x := c) (y := b - 1) (by omega) (by omega)
      omega
    · have habove := hstrict hgt hc
      omega
  · have hbottom := hend (k := 0) (by omega) hb hbfin
    rcases Nat.lt_or_gt_of_ne hne with hlt | hgt
    · have hbelow := hstrict hlt hbfin
      omega
    · have htop := hend (x := b + 1) (k := 1) (by omega) (by omega) (by omega)
      have habove := hmono (x := b + 1) (y := c) (by omega) hc
      omega

end Located

/-- Settles O55: where the fraction lies decides the overflow and, below it, the nearer end of the unit. -/
theorem roundsToNearestEven : Obligations.RoundsToNearestEven := by
  intro num den hden
  obtain ⟨sh, m, r, hloc, hround⟩ := exists_located hden (num := num)
  have hover := overflow_iff hloc
  refine ⟨hround ▸ Nat.min_le_right _ _, ?infinite, fun hfin c hc => ?nearest⟩
  case infinite =>
    rw [hround, ← hover]
    omega
  case nearest =>
    have hb : roundBody num den = sh * 2 ^ 23 + m + roundsUp (den * 2 ^ sh) m r := by omega
    by_cases hcb : c = roundBody num den
    · exact hcb ▸ ⟨Nat.le_refl _, fun _ => .inl rfl⟩
    · obtain ⟨hle, heven⟩ := nearest_even hloc hden hb hfin hc hcb
      exact ⟨hle, fun heq => .inr (heven heq)⟩

/-! Division by the length (R129, R167) -/

/-- Rounding looks at the value of the fraction alone. -/
theorem roundBody_mul_right (num den : Nat) {k : Nat} (hk : 0 < k) : roundBody (num * k) (den * k) = roundBody num den := by
  have hd (e : Nat) : den * k * e = den * e * k := Nat.mul_right_comm den k e
  have hlt (e : Nat) : den * e * k < 2 * (num % (den * e) * k) ↔ den * e < 2 * (num % (den * e)) := by
    rw [← Nat.mul_assoc, Nat.mul_lt_mul_right hk]
  have htie (e : Nat) : 2 * (num % (den * e) * k) = den * e * k ↔ 2 * (num % (den * e)) = den * e := by
    rw [← Nat.mul_assoc, Nat.mul_left_inj (Nat.ne_of_gt hk)]
  simp only [roundBody, hd, Nat.mul_div_mul_right _ _ hk, Nat.mul_mod_mul_right, hlt, htie]

/-- The pattern of the normal power of two with the biased exponent `e`. -/
def powerPattern (e : Nat) : Word := BitVec.ofNat 32 (e * 2 ^ 23)

theorem powerPattern_toNat {e : Nat} (he : e < 255) : (powerPattern e).toNat = e * 2 ^ 23 := by
  rw [powerPattern, BitVec.toNat_ofNat, Nat.mod_eq_of_lt (by omega)]

/-- A power of two of the normal range rounds to itself. -/
theorem roundBody_two_pow {k : Nat} (hk : 23 ≤ k) (hk' : k < 277) : roundBody (2 ^ k) 1 = (k - 22) * 2 ^ 23 := by
  obtain ⟨e, rfl⟩ : ∃ e, k = 23 + e := ⟨k - 23, by omega⟩
  have hm : 2 ^ (23 + e) / 2 ^ e = 2 ^ 23 := by rw [Nat.pow_add, Nat.mul_div_cancel _ (Nat.two_pow_pos e)]
  have hr : 2 ^ (23 + e) % 2 ^ e = 0 := by rw [Nat.pow_add, Nat.mul_mod_left]
  have hround : roundBody (2 ^ (23 + e)) 1 = min (e * 2 ^ 23 + 2 ^ 23) 0x7F800000 := by
    simp [roundBody, Nat.log2_two_pow, hm, hr]
  omega

/-- The length is exact in binary32. -/
theorem natToF32_two_pow {n : Nat} (hn : n ≤ 24) : natToF32 (2 ^ n) = powerPattern (127 + n) := by
  rw [natToF32, roundWord, ← Nat.pow_add, roundBody_two_pow (by omega) (by omega), packSign, powerPattern,
    if_neg Bool.false_ne_true, Nat.zero_add, show n + 149 - 22 = 127 + n by omega]

section Normal

variable {e : Nat} (he : 0 < e) (he' : e < 255)
include he he'

theorem fields_powerPattern : expField (powerPattern e) = e ∧ fracField (powerPattern e) = 0 := by
  rw [expField, fracField, powerPattern_toNat he']
  omega

theorem magnitude_powerPattern : magnitude (powerPattern e) = 2 ^ (22 + e) := by
  obtain ⟨hexp, hfrac⟩ := fields_powerPattern he he'
  rw [magnitude, hexp, hfrac, if_neg (by omega), Nat.add_zero, ← Nat.pow_add]
  congr 1
  omega

theorem powerPattern_special : isNaN (powerPattern e) = false ∧ isInf (powerPattern e) = false ∧
    isZero (powerPattern e) = false ∧ signBit (powerPattern e) = false := by
  obtain ⟨hexp, hfrac⟩ := fields_powerPattern he he'
  have hnat := powerPattern_toNat he'
  refine ⟨by simp [isNaN, hfrac], ?_, ?_, ?_⟩
  · simp [isInf, hexp, Nat.ne_of_lt he']
  · rw [isZero, hnat, beq_eq_false_iff_ne]
    omega
  · rw [signBit_eq, hnat, decide_eq_false_iff_not]
    omega

end Normal

/-- Dividing by a power of two is multiplying by its reciprocal: the two round the same value. -/
theorem fdiv_powerPattern (a : Word) {n : Nat} (hn : n ≤ 24) :
    fdiv a (powerPattern (127 + n)) = fmul a (powerPattern (127 - n)) := by
  obtain ⟨hnan, hinf, hzero, hsign⟩ := powerPattern_special (e := 127 + n) (by omega) (by omega)
  obtain ⟨hnan', hinf', hzero', hsign'⟩ := powerPattern_special (e := 127 - n) (by omega) (by omega)
  by_cases ha : isInf a = true
  · simp [fdiv, fmul, hnan, hinf, hnan', hzero', hsign, hsign', ha, isZero_of_isInf ha]
  · have hround : roundBody (magnitude a * 2 ^ 149) (2 ^ (149 + n)) = roundBody (magnitude a * 2 ^ (149 - n)) (2 ^ 149) := by
      rw [← roundBody_mul_right (magnitude a * 2 ^ (149 - n)) (2 ^ 149) (Nat.two_pow_pos n), Nat.mul_assoc, ← Nat.pow_add,
        ← Nat.pow_add, Nat.sub_add_cancel (by omega)]
    have hdiv : magnitude (powerPattern (127 + n)) = 2 ^ (149 + n) := by
      rw [magnitude_powerPattern (by omega) (by omega), ← Nat.add_assoc]
    have hmul : magnitude (powerPattern (127 - n)) = 2 ^ (149 - n) := by
      rw [magnitude_powerPattern (by omega) (by omega), ← Nat.add_sub_assoc (by omega)]
    simp [-Nat.reducePow, fdiv, fmul, roundWord, hnan, hinf, hzero, hnan', hinf', hsign, hsign', ha, hdiv, hmul, hround]

/-- Settles O56, from the pattern of the length. -/
theorem divideByPowerOfTwo : Obligations.DivideByPowerOfTwo := by
  intro a n hn
  have hlen := natToF32_two_pow hn
  exact ⟨hlen, hlen ▸ fdiv_powerPattern a hn⟩

/-! The twiddle ROM (R134 to R136) -/

/-- The angle of an entry is the fraction `r / 2^l` of the circle. -/
theorem angleFixed_scale (r l k : Nat) : angleFixed (r * 2 ^ k) (l + k) = angleFixed r l := by
  rw [angleFixed, angleFixed, ← Nat.mul_assoc, Nat.pow_add, Nat.mul_div_mul_right _ _ (Nat.two_pow_pos k)]

/-- Scaling keeps the angle 0, whose entry is exact, apart from the others. -/
theorem mul_two_pow_eq_zero_iff (r k : Nat) : r * 2 ^ k = 0 ↔ r = 0 := by
  have hpos := Nat.two_pow_pos k
  rw [Nat.mul_eq_zero]
  omega

theorem cosBody_scale (r l k : Nat) : cosBody (r * 2 ^ k) (l + k) = cosBody r l := by
  simp only [cosBody, mul_two_pow_eq_zero_iff, angleFixed_scale]

theorem sinBody_scale (r l k : Nat) : sinBody (r * 2 ^ k) (l + k) = sinBody r l := by
  simp only [sinBody, mul_two_pow_eq_zero_iff, angleFixed_scale]

/-- The entry of an angle is the same in every ROM that holds the angle and its octant. -/
theorem romEntry_scale {l : Nat} (hl : 2 ≤ l) (r k : Nat) : romEntry (l + k) (r * 2 ^ k) = romEntry l r := by
  have hquarter : 2 ^ l * 2 ^ k / 4 = 2 ^ l / 4 * 2 ^ k := (Nat.div_mul_right_comm (Nat.pow_dvd_pow 2 hl) _).symm
  simp only [romEntry, romRe, romIm, Nat.pow_add, hquarter, ← Nat.mul_assoc, ← Nat.sub_mul, cosBody_scale, sinBody_scale,
    Nat.mul_lt_mul_right (Nat.two_pow_pos k)]

theorem romEntry_zero (l : Nat) : romEntry l 0 = (0x3F800000#32, 0x00000000#32) := by
  simp [romEntry, romRe, romIm, cosBody, sinBody, romWord, packSign]

theorem romEntry_quarter {l : Nat} (hl : 2 ≤ l) : romEntry l (2 ^ l / 4) = (0x00000000#32, 0xBF800000#32) := by
  obtain ⟨k, rfl⟩ : ∃ k, l = 2 + k := ⟨l - 2, by omega⟩
  rw [show 2 ^ (2 + k) / 4 = 1 * 2 ^ k by rw [Nat.pow_add]; omega, romEntry_scale (Nat.le_refl 2)]
  decide

/-- A twiddle of stage `s` is an entry of the ROM of capacity `2^s`, whatever larger capacity holds the stage. -/
theorem twiddleForward_eq {l s j : Nat} (hs : 1 ≤ s) (hl : s ≤ l) (hj : j < 2 ^ (s - 1)) :
    twiddleForward l s j = romEntry s j := by
  rw [twiddleForward, romAddress]
  rcases Nat.eq_or_lt_of_le hs with rfl | hs2
  · obtain rfl : j = 0 := by simpa using hj
    rw [Nat.zero_mul, romEntry_zero, romEntry_zero]
  · obtain ⟨k, rfl⟩ : ∃ k, l = s + k := ⟨l - s, by omega⟩
    rw [Nat.add_sub_cancel_left, romEntry_scale hs2]

theorem romAddress_lt {l s j : Nat} (hs : 1 ≤ s) (hl : s ≤ l) (hj : j < 2 ^ (s - 1)) : romAddress l s j < 2 ^ l / 2 := by
  have hhalf : 2 ^ l / 2 = 2 ^ (s - 1) * 2 ^ (l - s) := by
    rw [← Nat.two_pow_pred_mul_two (by omega), Nat.mul_div_cancel _ (by omega), ← Nat.pow_add]
    congr 1
    omega
  rw [romAddress, hhalf]
  exact Nat.mul_lt_mul_of_pos_right hj (Nat.two_pow_pos _)

/-- Settles O57: both capacities give the entry of the ROM of capacity `2^s`. -/
theorem twiddleIndependentOfCapacity : Obligations.TwiddleIndependentOfCapacity := by
  intro l l' s j _ _ hs hl hl' hj
  have hforward : twiddleForward l s j = twiddleForward l' s j := by
    rw [twiddleForward_eq hs hl hj, twiddleForward_eq hs hl' hj]
  exact ⟨hforward, by rw [twiddleInverse, twiddleInverse, hforward], romAddress_lt hs hl hj⟩

/-- Settles O58: the two exact entries, and the sixteen of the ROM of capacity 32, which every larger ROM repeats. -/
theorem romEntries : Obligations.RomEntries := by
  refine ⟨fun l hl => ⟨romEntry_zero l, romEntry_quarter (by omega)⟩, fun l hl => ?_⟩
  have hblock32 : (List.range 16).map (twiddleForward l 5) = (List.range 16).map (romEntry 5) :=
    List.map_congr_left fun j hj => twiddleForward_eq (by omega) hl (by simpa using hj)
  rw [hblock32]
  decide

/-! Bit reversal (R137) -/

theorem bitReverse_lt (n i : Nat) : bitReverse n i < 2 ^ n := by
  induction n generalizing i with
  | zero => exact Nat.one_pos
  | succ n ih =>
    have hrest := ih (i / 2)
    have hbit : i % 2 * 2 ^ n ≤ 1 * 2 ^ n := Nat.mul_le_mul_right _ (by omega)
    rw [bitReverse, Nat.pow_succ]
    omega

/-- The reversed number bit by bit: its top bit is the lowest bit of `i`, the bits below it are those of `i / 2` reversed. -/
theorem testBit_bitReverse {n b : Nat} (i : Nat) (hb : b < n) : (bitReverse n i).testBit b = i.testBit (n - 1 - b) := by
  induction n generalizing i with
  | zero => omega
  | succ n ih =>
    rw [bitReverse, Nat.mul_comm, Nat.testBit_two_pow_mul_add _ (bitReverse_lt n _)]
    split
    · rename_i hlow
      rw [ih _ hlow, ← Nat.testBit_succ]
      congr 1
      omega
    · rename_i hhigh
      obtain rfl : b = n := by omega
      simp [Nat.testBit_zero]

/-- Reading backwards twice reads forwards. -/
theorem bitReverse_bitReverse {n i : Nat} (hi : i < 2 ^ n) : bitReverse n (bitReverse n i) = i := by
  refine Nat.eq_of_testBit_eq fun b => ?_
  by_cases hb : b < n
  · rw [testBit_bitReverse _ hb, testBit_bitReverse _ (by omega)]
    congr 1
    omega
  · have hpow : 2 ^ n ≤ 2 ^ b := Nat.pow_le_pow_right (by omega) (by omega)
    have hlt := bitReverse_lt n (bitReverse n i)
    rw [Nat.testBit_lt_two_pow (by omega), Nat.testBit_lt_two_pow (by omega)]

/-- Settles O59, from the bits of the reversed number. -/
theorem bitReverseInvolution : Obligations.BitReverseInvolution := fun n i hi =>
  ⟨bitReverse_lt n i, bitReverse_bitReverse hi, fun _ hb => testBit_bitReverse i hb⟩

/-! Arrays of samples -/

theorem elem_eq_getElem {xs : List Cx} {i : Nat} (hi : i < xs.length) : elem xs i = xs[i] := by
  rw [elem, List.getD_eq_getElem?_getD, List.getElem?_eq_getElem hi, Option.getD_some]

theorem elem_ext {xs ys : List Cx} (hlen : xs.length = ys.length) (h : ∀ i < xs.length, elem xs i = elem ys i) : xs = ys :=
  List.ext_getElem hlen fun i hx hy => by rw [← elem_eq_getElem hx, ← elem_eq_getElem hy, h i hx]

theorem elem_set {xs : List Cx} {k : Nat} (x : Cx) (i : Nat) (hk : k < xs.length) :
    elem (xs.set k x) i = if i = k then x else elem xs i := by
  rw [elem, elem, List.getD_eq_getElem?_getD, List.getD_eq_getElem?_getD, List.getElem?_set]
  by_cases h : k = i
  · subst h
    simp [hk]
  · simp [h, Ne.symm h]

theorem elem_map_range (f : Nat → Cx) {len i : Nat} (hi : i < len) : elem ((List.range len).map f) i = f i := by
  rw [elem_eq_getElem (by simpa using hi), List.getElem_map, List.getElem_range]

/-! The swaps of the bit-reversal pass (R139) -/

theorem swapStep_length (n : Nat) (xs : List Cx) (a : Nat) : (swapStep n xs a).length = xs.length := by
  unfold swapStep
  dsimp only
  split <;> simp

/-- The number of the swap that moves the element `k`: the smaller one of its two indices. -/
def swapOf (n k : Nat) : Nat := min k (bitReverse n k)

/-- A swap exchanges the two elements it is the swap of, and leaves the others. -/
theorem elem_swapStep {n a k : Nat} {xs : List Cx} (hlen : xs.length = 2 ^ n) (ha : a < 2 ^ n) (hk : k < 2 ^ n) :
    elem (swapStep n xs a) k = elem xs (if swapOf n k = a then bitReverse n k else k) := by
  have hra := bitReverse_lt n a
  have hrra := bitReverse_bitReverse ha
  have hrrk := bitReverse_bitReverse hk
  unfold swapStep swapOf
  dsimp only
  split
  · rename_i hlt
    rw [elem_set _ _ (by rw [List.length_set]; omega), elem_set _ _ (by omega)]
    by_cases hka : k = a
    · subst hka
      rw [if_neg (by omega), if_pos rfl, if_pos (by omega)]
    · by_cases hkr : k = bitReverse n a
      · subst hkr
        rw [if_pos rfl, hrra, if_pos (by omega)]
      · rw [if_neg hkr, if_neg hka, if_neg]
        intro hmin
        rcases Nat.le_total k (bitReverse n k) with hle | hle
        · omega
        · exact hkr (by rw [← hrrk, ← hmin, Nat.min_eq_right hle])
  · split
    · rename_i hmin
      rcases Nat.le_total k (bitReverse n k) with hle | hle
      · obtain rfl : k = a := by omega
        rw [show bitReverse n k = k by omega]
      · obtain rfl : bitReverse n k = a := by omega
        rw [show bitReverse n k = k by omega]
    · rfl

/-- After the swaps of a list without repetition, the elements whose swap is in the list are exchanged. -/
theorem elem_foldl_swapStep {n k : Nat} (hk : k < 2 ^ n) {order : List Nat} (hnodup : order.Nodup)
    (hlt : ∀ a ∈ order, a < 2 ^ n) {xs : List Cx} (hlen : xs.length = 2 ^ n) :
    elem (order.foldl (swapStep n) xs) k = elem xs (if swapOf n k ∈ order then bitReverse n k else k) := by
  induction order generalizing xs with
  | nil => simp
  | cons a rest ih =>
    obtain ⟨hfresh, hrest⟩ := List.nodup_cons.1 hnodup
    have ha : a < 2 ^ n := hlt a (by simp)
    have hsym : swapOf n (bitReverse n k) = swapOf n k := by
      rw [swapOf, swapOf, bitReverse_bitReverse hk, Nat.min_comm]
    rw [List.foldl_cons, ih hrest (fun b hb => hlt b (by simp [hb])) ((swapStep_length n xs a).trans hlen)]
    by_cases hin : swapOf n k ∈ rest
    · have hne : swapOf n k ≠ a := fun he => hfresh (he ▸ hin)
      rw [if_pos hin, elem_swapStep hlen ha (bitReverse_lt n k), hsym, if_neg hne, if_pos (by simp [hin])]
    · rw [if_neg hin, elem_swapStep hlen ha hk]
      simp [hin]

theorem foldl_swapStep_length (n : Nat) (order : List Nat) (xs : List Cx) : (order.foldl (swapStep n) xs).length = xs.length := by
  induction order generalizing xs with
  | nil => rfl
  | cons a rest ih => rw [List.foldl_cons, ih, swapStep_length]

/-- Settles O39: every element's swap is in the order once. -/
theorem swapOrderFree : Obligations.SwapOrderFree := by
  intro n xs order hlen hperm
  have hlt : ∀ a ∈ order, a < 2 ^ n := fun a ha => List.mem_range.1 (hperm.mem_iff.1 ha)
  have hnodup : order.Nodup := hperm.nodup_iff.2 List.nodup_range
  refine elem_ext (by simp [foldl_swapStep_length, hlen]) fun k hk => ?_
  rw [foldl_swapStep_length, hlen] at hk
  have hswap : swapOf n k ∈ order := hperm.mem_iff.2 (List.mem_range.2 (Nat.lt_of_le_of_lt (Nat.min_le_left _ _) hk))
  rw [elem_map_range _ hk, elem_foldl_swapStep hk hnodup hlt hlen, if_pos hswap]

/-! The butterflies of a stage (R138) -/

/-- The blocks of `k` indices, one after the other, are all indices. -/
theorem flatMap_blocks (m k : Nat) : ((List.range m).flatMap fun b => (List.range k).map (b * k + ·)) = List.range (m * k) := by
  induction m with
  | zero => simp
  | succ m ih => rw [List.range_succ, List.flatMap_append, ih, Nat.succ_mul, List.range_add, List.flatMap_singleton]

theorem flatMap_perm_of_forall {f g : Nat → List Nat} (bs : List Nat) (h : ∀ b, (f b).Perm (g b)) :
    (bs.flatMap f).Perm (bs.flatMap g) := by
  induction bs with
  | nil => exact List.Perm.refl _
  | cons b bs ih => exact (h b).append ih

/-- Pairs taken one after the other are all first members and all second members. -/
theorem flatMap_pair_perm (f g : Nat → Nat) (js : List Nat) :
    (js.flatMap fun j => [f j, g j]).Perm (js.map f ++ js.map g) := by
  induction js with
  | nil => exact List.Perm.refl _
  | cons j js ih => exact ((ih.cons (g j)).trans List.perm_middle.symm).cons (f j)

/-- The butterflies of one block cover its two halves. -/
theorem pairs_of_block_perm (base h : Nat) :
    ((List.range h).flatMap fun j => pairIndices h (base, j)).Perm ((List.range (2 * h)).map (base + ·)) := by
  have hsecond : (List.range h).map (fun j => base + j + h) = ((List.range h).map (h + ·)).map (base + ·) := by
    rw [List.map_map]
    refine List.map_congr_left fun j _ => ?_
    rw [Function.comp_apply]
    omega
  rw [Nat.two_mul, List.range_add, List.map_append, ← hsecond]
  exact flatMap_pair_perm (base + ·) (base + · + h) (List.range h)

/-- The butterflies of a stage of `m` blocks cover every index once. -/
theorem pairIndices_perm {h : Nat} (m : Nat) (hh : 0 < h) :
    ((stagePairs (m * (2 * h)) h).flatMap (pairIndices h)).Perm (List.range (m * (2 * h))) := by
  rw [stagePairs, Nat.mul_div_cancel _ (by omega), List.flatMap_assoc, ← flatMap_blocks m (2 * h)]
  refine flatMap_perm_of_forall _ fun b => ?_
  rw [List.flatMap_map]
  exact pairs_of_block_perm (b * (2 * h)) h

theorem stagePairs_length {h : Nat} (m : Nat) (hh : 0 < h) : (stagePairs (m * (2 * h)) h).length = m * (2 * h) / 2 := by
  rw [stagePairs, Nat.mul_div_cancel _ (by omega), List.length_flatMap]
  have hdouble : m * (2 * h) / 2 = m * h := by rw [Nat.mul_left_comm, Nat.mul_div_cancel_left _ (by omega)]
  simp only [hdouble, List.length_map, List.length_range, List.map_const', List.sum_replicate_nat]

/-- `2^n` elements are `2^(n-s)` blocks of stage `s`. -/
theorem two_pow_eq_blocks {n s : Nat} (hs : 1 ≤ s) (hn : s ≤ n) : 2 ^ n = 2 ^ (n - s) * (2 * 2 ^ (s - 1)) := by
  rw [← Nat.pow_succ', ← Nat.pow_add]
  congr 1
  omega

/-- Settles O37, block by block. -/
theorem pairsPartitionIndices : Obligations.PairsPartitionIndices := by
  intro n s hs hn
  rw [two_pow_eq_blocks hs hn]
  exact ⟨pairIndices_perm _ (Nat.two_pow_pos _), stagePairs_length _ (Nat.two_pow_pos _)⟩

/-- The two outputs of the butterfly `p` over the array `xs`. -/
def pairOutput (tw : Nat → Cx) (h : Nat) (xs : List Cx) (p : Nat × Nat) : Cx × Cx :=
  bfly (elem xs (p.1 + p.2)) (elem xs (p.1 + p.2 + h)) (tw p.2)

section Butterflies

variable {tw : Nat → Cx} {h : Nat}

@[simp] theorem butterflyStep_length (xs : List Cx) (p : Nat × Nat) : (butterflyStep tw h xs p).length = xs.length := by
  simp [butterflyStep]

@[simp] theorem foldl_butterflyStep_length (ps : List (Nat × Nat)) (xs : List Cx) :
    (ps.foldl (butterflyStep tw h) xs).length = xs.length := by
  induction ps generalizing xs with
  | nil => rfl
  | cons p ps ih => rw [List.foldl_cons, ih, butterflyStep_length]

/-- A butterfly writes its two elements. -/
theorem elem_butterflyStep {xs : List Cx} {p : Nat × Nat} (hh : 0 < h) (hp : p.1 + p.2 + h < xs.length) (i : Nat) :
    elem (butterflyStep tw h xs p) i =
      if i = p.1 + p.2 + h then (pairOutput tw h xs p).2 else if i = p.1 + p.2 then (pairOutput tw h xs p).1 else elem xs i := by
  rw [butterflyStep, elem_set _ _ (by rw [List.length_set]; exact hp), elem_set _ _ (by omega), pairOutput]

/-- Butterflies leave every element that is none of theirs. -/
theorem elem_foldl_butterflyStep_other (hh : 0 < h) {ps : List (Nat × Nat)} {xs : List Cx} {i : Nat}
    (hlt : ∀ p ∈ ps, p.1 + p.2 + h < xs.length) (hi : i ∉ ps.flatMap (pairIndices h)) :
    elem (ps.foldl (butterflyStep tw h) xs) i = elem xs i := by
  induction ps generalizing xs with
  | nil => rfl
  | cons q qs ih =>
    obtain ⟨hq, hqs⟩ : (i ≠ q.1 + q.2 ∧ i ≠ q.1 + q.2 + h) ∧ i ∉ qs.flatMap (pairIndices h) := by
      simpa [pairIndices, and_assoc] using hi
    rw [List.foldl_cons, ih (fun p hp => by simpa using hlt p (by simp [hp])) hqs, elem_butterflyStep hh (hlt q (by simp)),
      if_neg hq.2, if_neg hq.1]

/-- Disjoint butterflies run one after the other: each gives the outputs over the array before the first of them. -/
theorem elem_foldl_butterflyStep_pair (hh : 0 < h) {ps : List (Nat × Nat)} {xs : List Cx} {p : Nat × Nat}
    (hlt : ∀ p ∈ ps, p.1 + p.2 + h < xs.length) (hdisjoint : (ps.flatMap (pairIndices h)).Nodup) (hp : p ∈ ps) :
    elem (ps.foldl (butterflyStep tw h) xs) (p.1 + p.2) = (pairOutput tw h xs p).1 ∧
    elem (ps.foldl (butterflyStep tw h) xs) (p.1 + p.2 + h) = (pairOutput tw h xs p).2 := by
  induction ps generalizing xs with
  | nil => cases hp
  | cons q qs ih =>
    rw [List.flatMap_cons, List.nodup_append] at hdisjoint
    obtain ⟨_, hqs, hdiffer⟩ := hdisjoint
    have hapart {i : Nat} (hi : i ∈ pairIndices h q) : i ∉ qs.flatMap (pairIndices h) := fun hmem => hdiffer i hi i hmem rfl
    have hltq : q.1 + q.2 + h < xs.length := hlt q (by simp)
    have hltqs : ∀ p ∈ qs, p.1 + p.2 + h < (butterflyStep tw h xs q).length := fun p hp => by simpa using hlt p (by simp [hp])
    rw [List.foldl_cons]
    rcases List.mem_cons.1 hp with rfl | hpqs
    · have hfirst : p.1 + p.2 ∉ qs.flatMap (pairIndices h) := hapart (by simp [pairIndices])
      have hsecond : p.1 + p.2 + h ∉ qs.flatMap (pairIndices h) := hapart (by simp [pairIndices])
      rw [elem_foldl_butterflyStep_other hh hltqs hfirst, elem_foldl_butterflyStep_other hh hltqs hsecond,
        elem_butterflyStep hh hltq, elem_butterflyStep hh hltq, if_neg (by omega), if_pos rfl, if_pos rfl]
      exact ⟨rfl, rfl⟩
    · have hkept {i : Nat} (hi : i ∈ pairIndices h p) : elem (butterflyStep tw h xs q) i = elem xs i := by
        have hnot : i ∉ pairIndices h q := fun hiq => hapart hiq (List.mem_flatMap.2 ⟨p, hpqs, hi⟩)
        simp only [pairIndices, List.mem_cons, List.not_mem_nil, or_false, not_or] at hnot
        rw [elem_butterflyStep hh hltq, if_neg hnot.2, if_neg hnot.1]
      have hsame : pairOutput tw h (butterflyStep tw h xs q) p = pairOutput tw h xs p := by
        rw [pairOutput, hkept (by simp [pairIndices]), hkept (by simp [pairIndices]), pairOutput]
      rw [← hsame]
      exact ih hltqs hqs hpqs

end Butterflies

/-- The element at offset `j` of block `b` is the top output of the butterfly `(b, j)`, the one `h` above it the bottom output. -/
theorem elem_stageSeq {tw : Nat → Cx} {h : Nat} {xs : List Cx} {b j : Nat} (hj : j < h)
    (hlt : b * (2 * h) + j + h < xs.length) :
    elem (stageSeq tw h xs) (b * (2 * h) + j) = (pairOutput tw h xs (b * (2 * h), j)).1 ∧
    elem (stageSeq tw h xs) (b * (2 * h) + j + h) = (pairOutput tw h xs (b * (2 * h), j)).2 := by
  have htop : (b * (2 * h) + j) % (2 * h) = j := by rw [Nat.mul_comm, Nat.mul_add_mod, Nat.mod_eq_of_lt (by omega)]
  have hbottom : (b * (2 * h) + j + h) % (2 * h) = j + h := by
    rw [Nat.add_assoc, Nat.mul_comm, Nat.mul_add_mod, Nat.mod_eq_of_lt (by omega)]
  rw [stageSeq, elem_map_range _ (by omega), elem_map_range _ hlt, htop, hbottom]
  simp only [hj, Nat.not_lt.2 (Nat.le_add_left h j), if_true, if_false, Nat.add_sub_cancel, pairOutput, and_self]

/-- Disjoint butterflies that cover the array give the stage, whatever their order. -/
theorem foldl_butterflyStep_eq_stageSeq {tw : Nat → Cx} {h m : Nat} {xs : List Cx} {ps : List (Nat × Nat)} (hh : 0 < h)
    (hlen : xs.length = m * (2 * h)) (hperm : ps.Perm (stagePairs (m * (2 * h)) h)) :
    ps.foldl (butterflyStep tw h) xs = stageSeq tw h xs := by
  have hcover : (ps.flatMap (pairIndices h)).Perm (List.range (m * (2 * h))) :=
    (hperm.flatMap_right _).trans (pairIndices_perm m hh)
  have hdisjoint : (ps.flatMap (pairIndices h)).Nodup := hcover.nodup_iff.2 List.nodup_range
  have hlt : ∀ p ∈ ps, p.1 + p.2 + h < xs.length := fun p hp => by
    have hmem : p.1 + p.2 + h ∈ ps.flatMap (pairIndices h) := List.mem_flatMap.2 ⟨p, hp, by simp [pairIndices]⟩
    rw [hlen]
    exact List.mem_range.1 (hcover.mem_iff.1 hmem)
  refine elem_ext (by simp) fun i hi => ?_
  have hi' : i ∈ ps.flatMap (pairIndices h) := hcover.mem_iff.2 (List.mem_range.2 (by simpa [hlen] using hi))
  obtain ⟨p, hp, hip⟩ := List.mem_flatMap.1 hi'
  obtain ⟨b, j, hj, rfl⟩ : ∃ b j, j < h ∧ p = (b * (2 * h), j) := by
    have hstage := hperm.mem_iff.1 hp
    simp only [stagePairs, List.mem_flatMap, List.mem_map, List.mem_range] at hstage
    obtain ⟨b, _, j, hj, rfl⟩ := hstage
    exact ⟨b, j, hj, rfl⟩
  obtain ⟨htop, hbottom⟩ := elem_foldl_butterflyStep_pair (tw := tw) hh hlt hdisjoint hp
  obtain ⟨htop', hbottom'⟩ := elem_stageSeq (tw := tw) hj (hlt _ hp)
  simp only [pairIndices, List.mem_cons, List.not_mem_nil, or_false] at hip
  rcases hip with rfl | rfl
  · exact htop.trans htop'.symm
  · exact hbottom.trans hbottom'.symm

/-- Settles O38: any order runs each of the disjoint butterflies once. -/
theorem stageOrderFree : Obligations.StageOrderFree := by
  intro tw n s xs ps hs hn hlen hperm
  have hblocks := two_pow_eq_blocks hs hn
  exact foldl_butterflyStep_eq_stageSeq (Nat.two_pow_pos _) (hlen.trans hblocks) (hblocks ▸ hperm)

/-! The commands of the datapath (R160 to R167, R190) -/

theorem isPow2_two_pow (n : Nat) : isPow2 (2 ^ n) = true := by
  simp [isPow2, Nat.and_two_pow_sub_one_eq_mod]

/-- A power of two up to the capacity is a legal transform length (R162). -/
theorem checkTransform_two_pow {d : Buf} {n : Nat} {s : State} (hlen : len s d = 2 ^ n) (hcap : 2 ^ n ≤ nmax s.params) :
    checkTransform d s = none := by
  simp [checkTransform, checkLength, hlen, isPow2_two_pow, Nat.not_lt.2 hcap]

theorem checkStage_two_pow {d : Buf} {stg n : Nat} {s : State} (hlen : len s d = 2 ^ n) (hcap : 2 ^ n ≤ nmax s.params)
    (hlow : 1 ≤ stg) (hhigh : stg ≤ n) : checkStage d stg s = none := by
  rw [checkStage, checkTransform_two_pow hlen hcap, hlen, Nat.log2_two_pow]
  exact if_neg (by omega)

/-- CMUL is accepted with equal lengths, where it names both buffers, up to the capacity (R191). -/
theorem checkCmul_none {d s1 s2 : Buf} {s : State} (hequal : d ≠ s1 ∨ s1 ≠ s2 → s.lena = s.lenb)
    (hcap : len s s1 ≤ nmax s.params) : checkCmul d s1 s2 s = none := by
  have hboth : ¬((!(d == s1 && s1 == s2)) && s.lena != s.lenb) = true := by
    simp only [Bool.and_eq_true, Bool.not_eq_true', Bool.and_eq_false_iff, beq_eq_false_iff_ne, bne_iff_ne]
    exact fun ⟨hnames, hdiffer⟩ => hdiffer (hequal hnames)
  rw [checkCmul, checkPair, if_neg hboth, if_neg (Nat.not_lt.2 hcap)]

/-- The destination operand after completion, read as a list, is the command's result. -/
theorem readBuf_complete {i : Instr} {s : State} (hv : validate i s = none) :
    readBuf (complete (updateOf i s) s) (destOf i) (operandLen i s) = resultOf i s := by
  have hlen := (updateOf_eq i s).2
  refine elem_ext (by simp [hlen]) fun k hk => ?_
  rw [readBuf_length] at hk
  rw [readBuf, elem_map_range _ hk, elemAt_complete_result hv hk]

theorem elem_readBuf {s : State} {b : Buf} {len k : Nat} (hk : k < len) : elem (readBuf s b len) k = elemAt s b k :=
  elem_map_range _ hk

theorem elem_scaleSeq {n k : Nat} {xs : List Cx} (hk : k < xs.length) :
    elem (scaleSeq n xs) k =
      { re := (elem xs k).re.map (fdiv · (natToF32 n)), im := (elem xs k).im.map (fdiv · (natToF32 n)) } := by
  rw [elem_eq_getElem (by simpa using hk), elem_eq_getElem hk]
  simp [scaleSeq]

/-- Settles O30, element by element of the divided buffer. -/
theorem scaleResult : Obligations.ScaleResult := by
  intro d n s hb hlen hcap
  have hv : validate (.scale d) s = none := checkTransform_two_pow hlen hcap
  rw [← hlen]
  refine ⟨_, exec_busy hb hv, rfl, fun k hk => (elemAt_complete_result hv hk).trans ?_⟩
  rw [resultOf, elem_scaleSeq (by simpa using hk), elem_readBuf hk]

/-- Settles O29: with `2^stg = 2h`, the two elements are the outputs of the butterfly of block `b` and position `j`. -/
theorem stageResult : Obligations.StageResult := by
  intro d stg n inv s hb hlen hcap hlow hhigh
  have hv : validate (.bfstg d stg inv) s = none := checkStage_two_pow hlen hcap hlow hhigh
  refine ⟨_, exec_busy hb hv, rfl, fun b hblock j hj => ?_⟩
  obtain ⟨h, hh⟩ : ∃ h, h = 2 ^ (stg - 1) := ⟨_, rfl⟩
  have hsize : 2 ^ stg = 2 * h := by rw [hh, ← Nat.pow_succ']; congr 1; omega
  have htotal : 2 ^ n = 2 ^ (n - stg) * (2 * h) := hh ▸ two_pow_eq_blocks hlow hhigh
  have hlt : b * (2 * h) + j + h < len s d := by
    have hend := Nat.mul_le_mul_right (2 * h) (Nat.succ_le_of_lt hblock)
    rw [Nat.succ_mul] at hend
    omega
  obtain ⟨htop, hbottom⟩ := elem_stageSeq (tw := twiddle (lognmax s.params) inv stg) (xs := readBuf s d (len s d)) (hh ▸ hj)
    (by simpa using hlt)
  have hlt' : b * (2 * h) + j < len s d := by omega
  rw [hsize, ← hh]
  refine (congr (congrArg Prod.mk (elemAt_complete_result hv hlt')) (elemAt_complete_result hv hlt)).trans ?_
  rw [resultOf, stageOf, ← hh, htop, hbottom, pairOutput, elem_readBuf hlt, elem_readBuf hlt']

/-- The stages `1 .. n` of the spec's loop nest, each butterfly in place, are the stages as the commands compute them. -/
theorem foldl_stages (l : Nat) (inv : Dir) {n k : Nat} (hk : k ≤ n) {xs : List Cx} (hlen : xs.length = 2 ^ n) :
    (List.range k).foldl (fun ys e => (stagePairs (2 ^ n) (2 ^ e)).foldl (butterflyStep (twiddle l inv (e + 1)) (2 ^ e)) ys) xs =
      stagesSeq l inv k xs := by
  induction k with
  | zero => rfl
  | succ k ih =>
    rw [List.range_succ, List.foldl_append, ih (by omega), List.foldl_cons, List.foldl_nil, stagesSeq, stageOf]
    exact stageOrderFree _ n (k + 1) _ _ (by omega) hk (by rw [stagesSeq_length, hlen]) (List.Perm.refl _)

/-- The spec's loop nest, swaps and then stages, on a whole array in place (R160, R161). -/
theorem loopNest_eq (l : Nat) (inv : Dir) {n : Nat} {xs : List Cx} (hlen : xs.length = 2 ^ n) :
    (List.range n).foldl (fun ys e => (stagePairs (2 ^ n) (2 ^ e)).foldl (butterflyStep (twiddle l inv (e + 1)) (2 ^ e)) ys)
        ((List.range (2 ^ n)).foldl (swapStep n) xs) =
      stagesSeq l inv xs.length.log2 (bitrevSeq xs.length.log2 xs) := by
  have hswaps : (List.range (2 ^ n)).foldl (swapStep n) xs = bitrevSeq n xs := by
    rw [swapOrderFree n xs _ hlen (List.Perm.refl _), bitrevSeq, hlen]
  rw [hswaps, foldl_stages l inv (Nat.le_refl n) (by rw [bitrevSeq_length, hlen]), hlen, Nat.log2_two_pow]

/-- Settles O31: the loop nest on the old buffer is the transform the command writes. -/
theorem fftResult : Obligations.FftResult := by
  intro d n s hb hlen hcap
  have hv : validate (.fft d) s = none := checkTransform_two_pow hlen hcap
  refine ⟨_, exec_busy hb hv, rfl, ?_⟩
  rw [loopNest_eq _ _ (readBuf_length ..), ← hlen]
  exact readBuf_complete hv

/-- Settles O32: as for the forward transform, with the division as the commands compute it. -/
theorem ifftResult : Obligations.IfftResult := by
  intro d n s hb hlen hcap
  have hv : validate (.ifft d) s = none := checkTransform_two_pow hlen hcap
  refine ⟨_, exec_busy hb hv, rfl, ?_⟩
  rw [loopNest_eq _ _ (readBuf_length ..), readBuf_length, ← hlen]
  have hread := readBuf_complete hv
  rw [resultOf, ifftSeq, readBuf_length] at hread
  exact hread

theorem elem_zipWith_cmul {xs ys : List Cx} {k : Nat} (hx : k < xs.length) (hy : k < ys.length) :
    elem (List.zipWith cmul xs ys) k = cmul (elem xs k) (elem ys k) := by
  have hzip : k < (List.zipWith cmul xs ys).length := List.length_zipWith ▸ Nat.lt_min.2 ⟨hx, hy⟩
  rw [elem_eq_getElem hzip, elem_eq_getElem hx, elem_eq_getElem hy, List.getElem_zipWith]

/-- Settles O33: both sources are read before the destination is written, so aliasing needs no case of its own. -/
theorem cmulResult : Obligations.CmulResult := by
  intro d s1 s2 s hb hequal hcap
  have hv : validate (.cmul d s1 s2) s = none := checkCmul_none hequal hcap
  refine ⟨_, exec_busy hb hv, rfl, fun k hk => (elemAt_complete_result hv hk).trans ?_⟩
  have hk' {b : Buf} : k < (readBuf s b (len s s1)).length := by simpa using hk
  rw [resultOf, elem_zipWith_cmul hk' hk', elem_readBuf hk, elem_readBuf hk, cmul]

end Sys2Proof.Machine
end

section
/-! Scope: the transforms (41_transform.md). An operand length above the capacity (R263), the commands of CONVOLVE (R240, R244), the
result of BITREV (R163), and FFT and IFFT as the sequence of their parts (R169). -/

namespace Sys2Proof.Machine

/-! The capacity (R5) -/

theorem lognmax_le (p : Params) : lognmax p ≤ 24 := by
  have hcapacity := p.capacity.isLt
  rw [lognmax]
  omega

theorem le_lognmax_of_two_pow_le {p : Params} {n : Nat} (h : 2 ^ n ≤ nmax p) : n ≤ lognmax p :=
  (Nat.pow_le_pow_iff_right (by omega)).1 h

/-- A length register holds every length up to the capacity (R37, R38). -/
theorem nmax_lt (p : Params) : nmax p < 2 ^ 32 :=
  Nat.pow_lt_pow_right (by omega) (Nat.lt_of_le_of_lt (lognmax_le p) (by omega))

theorem len_of_lenWord_ofNat {s : State} {b : Buf} {m : Nat} (hword : lenWord s b = BitVec.ofNat 32 m)
    (hcap : m ≤ nmax s.params) : len s b = m := by
  rw [len, hword, BitVec.toNat_ofNat, Nat.mod_eq_of_lt (Nat.lt_of_le_of_lt hcap (nmax_lt _))]

/-! Lengths above the capacity (R162, R191, R201, R263) -/

/-- A power of two above the capacity is no transform length. -/
theorem checkTransform_tooLarge {d : Buf} {s : State} (hpow : ∃ k, len s d = 2 ^ k) (hbig : nmax s.params < len s d) :
    checkTransform d s = some .lengthTooLarge := by
  obtain ⟨k, hk⟩ := hpow
  rw [checkTransform, checkLength, if_neg (by simp [hk, isPow2_two_pow]), if_pos hbig]

theorem checkPair_tooLarge {both : Bool} {m : Nat} {s : State} (hequal : both = true → s.lena = s.lenb)
    (hbig : nmax s.params < m) : checkPair both m s = some .lengthTooLarge := by
  have hlengths : ¬(both && s.lena != s.lenb) = true := by
    rw [Bool.and_eq_true, bne_iff_ne]
    exact fun ⟨hboth, hdiffer⟩ => hdiffer (hequal hboth)
  rw [checkPair, if_neg hlengths, if_pos hbig]

/-- CMUL's test of its operands is whether it names both buffers (R191, R267). -/
theorem not_sameBuf_eq_namesBoth (d s1 s2 : Buf) : (!(d == s1 && s1 == s2)) = namesBoth (.cmul d s1 s2) :=
  Bool.not_and _ _

/-- Validation finds a length above the capacity where it finds no earlier error (R266). -/
theorem validate_tooLarge {i : Instr} {s : State} (hpow : isTransform i = true → ∃ k, operandLen i s = 2 ^ k)
    (hequal : namesBoth i = true → s.lena = s.lenb) (hpresent : (∃ d s1, i = .magph d s1) → s.params.hasMagph = true)
    (hbig : nmax s.params < operandLen i s) : validate i s = some .lengthTooLarge := by
  cases i with
  | fft d | ifft d | bitrev d | scale d => exact checkTransform_tooLarge (hpow rfl) hbig
  | bfstg d stg inv => rw [validate, checkStage, checkTransform_tooLarge (d := d) (hpow rfl) hbig]
  | cmul d s1 s2 => exact checkPair_tooLarge (not_sameBuf_eq_namesBoth d s1 s2 ▸ hequal) hbig
  | magph d s1 =>
    rw [validate, checkMagph, if_neg (by simp [hpresent ⟨d, s1, rfl⟩])]
    exact checkPair_tooLarge hequal hbig

/-- Settles O12: the length is the first check that fails. -/
theorem lengthTooLargeError : Obligations.LengthTooLargeError := fun _ _ hidle =>
  ⟨fun hpow hequal hpresent hbig => exec_error hidle (validate_tooLarge hpow hequal hpresent hbig), operandLen_le⟩

/-! The commands of CONVOLVE (R240, R244) -/

theorem validateWord_decoded {w : Word} {i : Instr} (hd : decodeWord w = .ok i) (s : State) : validateWord w s = validate i s := by
  rw [validateWord, hd]

/-- Settles O52: the four words are FFT A, FFT B, CMUL A, A, B and IFFT A. -/
theorem convolveCommandsAccepted : Obligations.ConvolveCommandsAccepted := by
  intro s n ha hb hcap w hw
  have hlenA : len s .A = 2 ^ n := len_of_lenWord_ofNat ha hcap
  have hlenB : len s .B = 2 ^ n := len_of_lenWord_ofNat hb hcap
  simp only [List.mem_cons, List.not_mem_nil, or_false] at hw
  rcases hw with rfl | rfl | rfl | rfl
  · exact (validateWord_decoded (i := .fft .A) rfl s).trans (checkTransform_two_pow hlenA hcap)
  · exact (validateWord_decoded (i := .fft .B) rfl s).trans (checkTransform_two_pow hlenB hcap)
  · exact (validateWord_decoded (i := .cmul .A .A .B) rfl s).trans (checkCmul_none (fun _ => ha.trans hb.symm) (hlenA ▸ hcap))
  · exact (validateWord_decoded (i := .ifft .A) rfl s).trans (checkTransform_two_pow hlenA hcap)

/-! The result of BITREV (R163) -/

theorem elem_bitrevSeq {n k : Nat} {xs : List Cx} (hk : k < xs.length) : elem (bitrevSeq n xs) k = elem xs (bitReverse n k) :=
  elem_map_range _ hk

/-- Settles O28: the new element `k` is the old element `rev_n(k)`, and `rev_n` is its own inverse. -/
theorem bitrevResult : Obligations.BitrevResult := by
  intro d n s hb hlen hcap
  have hv : validate (.bitrev d) s = none := checkTransform_two_pow hlen hcap
  have hmoved {k : Nat} (hk : k < 2 ^ n) :
      elemAt (complete (updateOf (.bitrev d) s) s) d k = elemAt s d (bitReverse n k) := by
    refine (elemAt_complete_result hv (Nat.lt_of_lt_of_eq hk hlen.symm)).trans ?_
    rw [resultOf, hlen, Nat.log2_two_pow, elem_bitrevSeq (by simpa using hk), elem_readBuf (bitReverse_lt n k)]
  refine ⟨_, exec_busy hb hv, rfl, fun k hk => ⟨?_, hmoved hk⟩⟩
  rw [hmoved (bitReverse_lt n k), bitReverse_bitReverse hk]

/-! A buffer written twice -/

/-- The bytes after a write of a buffer: the imaginary words, the real words, the old bytes. -/
theorem byteAt_writeBuf (s : State) (b : Buf) (xs : List Cx) (x : Nat) :
    byteAt (writeBuf s b xs) x =
      if planeBase s.params (imPlane b) ≤ x ∧ x < planeBase s.params (imPlane b) + 4 * xs.length then
        byteAt (cellsOf (planeBase s.params (imPlane b)) (xs.map Cx.im)) x
      else if planeBase s.params (rePlane b) ≤ x ∧ x < planeBase s.params (rePlane b) + 4 * xs.length then
        byteAt (cellsOf (planeBase s.params (rePlane b)) (xs.map Cx.re)) x
      else byteAt s.mem x := by
  rw [writeBuf, byteAt_writeWords, byteAt_writeWords, List.length_map, List.length_map]

/-- A second write of as many elements leaves nothing of the first. -/
theorem writeBuf_writeBuf {s t : State} {b : Buf} {xs ys : List Cx} (hwf : s.mem.wf) (hp : t.params = s.params)
    (hm : t.mem = writeBuf s b xs) (hlen : ys.length = xs.length) : writeBuf t b ys = writeBuf s b ys := by
  have hwft : t.mem.wf := hm ▸ writeBuf_wf b xs hwf
  refine Memory.ext_of_wf (writeBuf_wf b ys hwft) (writeBuf_wf b ys hwf) fun x => ?_
  rw [byteAt_writeBuf, byteAt_writeBuf, hm, byteAt_writeBuf, hp, hlen]
  split
  · rfl
  · split <;> rfl

/-- A buffer written reads as it was written. -/
theorem readBuf_of_writeBuf {s t : State} {b : Buf} {xs : List Cx} (hp : t.params = s.params) (hm : t.mem = writeBuf s b xs)
    (hcap : xs.length ≤ nmax s.params) : readBuf t b xs.length = xs := by
  refine elem_ext (readBuf_length ..) fun k hk => ?_
  rw [readBuf_length] at hk
  have hsame : elemAt t b k = elemAt { s with mem := writeBuf s b xs } b k :=
    elemAt_congr (t := { s with mem := writeBuf s b xs }) hp hm b k
  rw [elem_readBuf hk, hsame, elemAt_writeBuf_self hcap (Nat.lt_of_lt_of_le hk hcap), dif_pos hk, elem_eq_getElem hk]

/-! Commands issued and awaited (R169, R215, R218) -/

/-- The state after the command `i` has been accepted and completed. -/
def awaited (i : Instr) (s : State) : State := complete (updateOf i s) (accept (encode i) s)

theorem runOne_eq_awaited {i : Instr} {s : State} (hidle : Idle s) (hwell : WellFormed i = true) (hv : validate i s = none) :
    runOne i s = .next (awaited i s) := by
  have hd : decodeWord (encode i) = .ok i := decodeWord_encode hwell
  have hv' : validate i (accept (encode i) s) = none :=
    (validate_congr (accept_params _ s) (accept_lena _ s) (accept_lenb _ s)).trans hv
  have hupdate : updateOf i (accept (encode i) s) = updateOf i s := updateOf_congr i rfl rfl rfl rfl
  rw [runOne, issueCommand_decoded hidle hd, exec_accept hidle hv]
  exact (engineTurn_complete rfl hd hv').trans (by rw [hupdate, awaited])

theorem runAll_append {is : List Instr} {s t : State} (h : runAll is s = .next t) (js : List Instr) :
    runAll (is ++ js) s = runAll js t := by
  induction is generalizing s with
  | nil => injection h with h; rw [List.nil_append, h]
  | cons i is ih =>
    rw [runAll] at h
    rw [List.cons_append, runAll]
    cases hone : runOne i s with
    | next u => rw [hone] at h; exact ih h
    | fault f => rw [hone] at h; cases h
    | refused r => rw [hone] at h; cases h

theorem runAll_singleton {i : Instr} {s t : State} (h : runOne i s = .next t) : runAll [i] s = .next t := by
  simp only [runAll, h]

/-! Sequences of commands on one operand -/

/-- `t` is the idle state `s` with the operand in the buffer `d` replaced by `xs`, the flags and CMD left aside. -/
structure Replaced (s : State) (d : Buf) (xs : List Cx) (t : State) : Prop where
  idle : Idle t
  params : t.params = s.params
  lena : t.lena = s.lena
  lenb : t.lenb = s.lenb
  mem : t.mem = writeBuf s d xs
  length : xs.length = len s d

theorem idle_awaited {s : State} (h : Idle s) (i : Instr) : Idle (awaited i s) := ⟨rfl, h.2⟩

/-- The first command replaces its operand by its result. -/
theorem replaced_awaited {i : Instr} {s : State} (hidle : Idle s) (hin : lengthBuf i = destOf i) :
    Replaced s (destOf i) (resultOf i s) (awaited i s) :=
  have hupdate := updateOf_eq i s
  ⟨idle_awaited hidle i, rfl, rfl, rfl, hupdate.1, hupdate.2.trans (congrArg (len s) hin)⟩

section Replaced

variable {s t : State} {d : Buf} {xs : List Cx} (h : Replaced s d xs t)
include h

theorem Replaced.len_eq : len t d = len s d := len_congr h.lena h.lenb d

theorem Replaced.readBuf_eq (hcap : len s d ≤ nmax s.params) : readBuf t d (len s d) = xs :=
  h.length ▸ readBuf_of_writeBuf h.params h.mem (h.length.symm ▸ hcap)

/-- Every further command replaces the operand by its result. -/
theorem Replaced.run_command {i : Instr} (hwf : s.mem.wf) (hwell : WellFormed i = true) (hv : validate i s = none)
    (hdest : destOf i = d) (hin : lengthBuf i = d) :
    runAll [i] t = .next (awaited i t) ∧ Replaced s d (resultOf i t) (awaited i t) := by
  have hvt : validate i t = none := (validate_congr h.params h.lena h.lenb).trans hv
  obtain ⟨hupdate, hlen⟩ := updateOf_eq i t
  have hsize : (resultOf i t).length = len s d := by rw [hlen, operandLen, hin, h.len_eq]
  have hmem : updateOf i t = writeBuf s d (resultOf i t) := by
    rw [hupdate, hdest, writeBuf_writeBuf hwf h.params h.mem (hsize.trans h.length.symm)]
  exact ⟨runAll_singleton (runOne_eq_awaited h.idle hwell hvt),
    idle_awaited h.idle i, h.params, h.lena, h.lenb, hmem, hsize⟩

end Replaced

/-- The commands of the stages `1 .. k`. -/
def stageCommands (d : Buf) (inv : Dir) (k : Nat) : List Instr := (List.range k).map fun e => .bfstg d (e + 1) inv

theorem stageCommands_succ (d : Buf) (inv : Dir) (k : Nat) :
    stageCommands d inv (k + 1) = stageCommands d inv k ++ [.bfstg d (k + 1) inv] := by
  rw [stageCommands, List.range_succ, List.map_append, stageCommands, List.map_singleton]

theorem fftSeq_eq {n : Nat} {xs : List Cx} (l : Nat) (hlen : xs.length = 2 ^ n) :
    fftSeq l xs = stagesSeq l .forward n (bitrevSeq n xs) := by
  rw [fftSeq, hlen, Nat.log2_two_pow]

theorem ifftSeq_eq {n : Nat} {xs : List Cx} (l : Nat) (hlen : xs.length = 2 ^ n) :
    ifftSeq l xs = scaleSeq (2 ^ n) (stagesSeq l .inverse n (bitrevSeq n xs)) := by
  rw [ifftSeq, hlen, Nat.log2_two_pow]

section Parts

variable {s : State} {d : Buf} {n : Nat} (hwf : s.mem.wf) (hlen : len s d = 2 ^ n) (hcap : 2 ^ n ≤ nmax s.params)
include hwf hlen hcap

/-- The stages `1 .. k`, each awaited, compose to the pass of `k` stages (R165, R168). -/
theorem runAll_stageCommands (inv : Dir) {xs : List Cx} {t : State} (h : Replaced s d xs t) {k : Nat} (hk : k ≤ n) :
    ∃ u, runAll (stageCommands d inv k) t = .next u ∧ Replaced s d (stagesSeq (lognmax s.params) inv k xs) u := by
  induction k with
  | zero => exact ⟨t, rfl, h⟩
  | succ k ih =>
    obtain ⟨u, hrun, hu⟩ := ih (by omega)
    have hwell : WellFormed (.bfstg d (k + 1) inv) = true := by
      have hn := le_lognmax_of_two_pow_le hcap
      have hl := lognmax_le s.params
      exact decide_eq_true (by omega)
    obtain ⟨hlast, hu'⟩ := hu.run_command (i := .bfstg d (k + 1) inv) hwf hwell
      (checkStage_two_pow hlen hcap (by omega) hk) rfl rfl
    rw [resultOf, hu.params, hu.len_eq, hu.readBuf_eq (hlen.symm ▸ hcap)] at hu'
    exact ⟨_, by rw [stageCommands_succ, runAll_append hrun, hlast], hu'⟩

/-- BITREV and then every stage, each awaited, compose to the transform before any division. -/
theorem runAll_bitrev_stageCommands (inv : Dir) (hidle : Idle s) :
    ∃ u, runAll ([.bitrev d] ++ stageCommands d inv n) s = .next u ∧
      Replaced s d (stagesSeq (lognmax s.params) inv n (bitrevSeq n (readBuf s d (len s d)))) u := by
  have hfirst := runAll_singleton (runOne_eq_awaited (i := .bitrev d) hidle rfl (checkTransform_two_pow hlen hcap))
  have hreplaced := replaced_awaited (i := .bitrev d) hidle rfl
  rw [resultOf, hlen, Nat.log2_two_pow, ← hlen] at hreplaced
  obtain ⟨u, hrun, hu⟩ := runAll_stageCommands hwf hlen hcap inv hreplaced (Nat.le_refl n)
  exact ⟨u, (runAll_append hfirst _).trans hrun, hu⟩

/-- SCALE, awaited, divides what the operand was replaced by (R167). -/
theorem runAll_scale {xs : List Cx} {t : State} (h : Replaced s d xs t) :
    ∃ u, runAll [.scale d] t = .next u ∧ Replaced s d (scaleSeq (2 ^ n) xs) u := by
  obtain ⟨hrun, hu⟩ := h.run_command (i := .scale d) hwf rfl (checkTransform_two_pow hlen hcap) rfl rfl
  rw [resultOf, h.len_eq, h.readBuf_eq (hlen.symm ▸ hcap), hlen] at hu
  exact ⟨_, hrun, hu⟩

end Parts

/-- Settles O40: either way the operand is replaced by the stages of the bit-reversed buffer, divided by the length for IFFT. -/
theorem compositionLaw : Obligations.CompositionLaw := by
  intro d n s hinv hidle hlen hcap
  have hsize : (readBuf s d (len s d)).length = 2 ^ n := (readBuf_length ..).trans hlen
  have hv : checkTransform d s = none := checkTransform_two_pow hlen hcap
  constructor
  · obtain ⟨u, hrun, hu⟩ := runAll_bitrev_stageCommands hinv.sorted hlen hcap .forward hidle
    have ht := replaced_awaited (i := .fft d) hidle rfl
    rw [resultOf, fftSeq_eq _ hsize] at ht
    exact ⟨_, u, runAll_singleton (runOne_eq_awaited hidle rfl hv), hrun, ht.mem.trans hu.mem.symm⟩
  · obtain ⟨v, hstages, hv'⟩ := runAll_bitrev_stageCommands hinv.sorted hlen hcap .inverse hidle
    obtain ⟨u, hscale, hu⟩ := runAll_scale hinv.sorted hlen hcap hv'
    have ht := replaced_awaited (i := .ifft d) hidle rfl
    rw [resultOf, ifftSeq_eq _ hsize] at ht
    exact ⟨_, u, runAll_singleton (runOne_eq_awaited hidle rfl hv), (runAll_append hstages _).trans hscale,
      ht.mem.trans hu.mem.symm⟩

end Sys2Proof.Machine
end

section
/-! Scope: the command MAGPH (43_magphase.md). Its presence (R205), its result (R200, R206), and the special cases of the default
arctangent (R204). -/

namespace Sys2Proof.Machine

/-! Validation of MAGPH (R201) -/

/-- The length rule of MAGPH is that of CMUL, the second source left out (R191, R201). -/
theorem checkMagph_present {d s1 : Buf} {s : State} (h : s.params.hasMagph = true) :
    checkMagph d s1 s = checkCmul d s1 s1 s := by
  simp [checkMagph, checkCmul, h, bne]

theorem validate_magph_absent {s : State} (h : s.params.hasMagph = false) (d s1 : Buf) :
    validate (.magph d s1) s = some .illegalCommand := by
  simp [validate, checkMagph, h]

theorem checkPair_ne_illegalCommand (both : Bool) (n : Nat) (s : State) : checkPair both n s ≠ some .illegalCommand := by
  rw [checkPair]
  split
  · simp
  · split <;> simp

/-! The presence of MAGPH (R205) -/

/-- A row whose mask tests all of OPC fixes the opcode of the words it hits (R91, R95). -/
theorem opcAt_of_rowHit {row : Word × Word} {w : Word} (hmask : row.1 &&& 15#32 = 15#32) (h : rowHit row w = true) :
    opcAt w = opcAt row.2 := by
  have hopc (v : Word) : opcAt v = (v &&& 15#32).toNat := (Nat.and_two_pow_sub_one_eq_mod v.toNat 4).symm
  have hw : w &&& row.1 = row.2 := eq_of_beq h
  rw [hopc, hopc, ← hw, BitVec.and_assoc, hmask]

/-- OPC 7 is the opcode of MAGPH alone (R94, R95). -/
theorem magph_of_opcAt {w : Word} {i : Instr} (hopc : opcAt w = 7) (hd : decodeWord w = .ok i) : ∃ d s1, i = .magph d s1 := by
  cases decodesBy_of_decodeWord hd with
  | magph _ => exact ⟨_, _, rfl⟩
  | fft h | ifft h | cmul h | bitrev h | bfstg h | scale h =>
    exact absurd ((opcAt_of_rowHit rfl h).symm.trans hopc) (by decide)

/-- Settles O16: a word of OPC 7 decodes to MAGPH or not at all; a unit that has MAGPH checks its lengths alone. -/
theorem magphPresence : Obligations.MagphPresence := by
  intro s
  have hcap : (regValue .cap s).getLsbD 8 = s.params.hasMagph := (capWord_fields s.params).2.1
  refine ⟨fun habsent => ⟨hcap.trans habsent, fun w hopc => ?_⟩, fun hpresent => ⟨hcap.trans hpresent, fun d s1 => ?_⟩⟩
  · cases hd : decodeWord w with
    | error r => rw [validateWord, hd]
    | ok i =>
      obtain ⟨d, s1, rfl⟩ := magph_of_opcAt hopc hd
      rw [validateWord_decoded hd, validate_magph_absent habsent]
  · rw [validateWord_decoded (decodeWord_encode rfl), validate, checkMagph_present hpresent]
    exact checkPair_ne_illegalCommand _ _ s

/-! The result of MAGPH (R200, R206) -/

theorem elem_map_magPhase (p : Params) {xs : List Cx} {k : Nat} (hk : k < xs.length) :
    elem (xs.map (magPhase p)) k = magPhase p (elem xs k) := by
  rw [elem_eq_getElem (by simpa using hk), elem_eq_getElem hk, List.getElem_map]

/-- Settles O34: the source is read before the destination is written, so in place needs no case of its own. -/
theorem magphResult : Obligations.MagphResult := by
  intro d s1 s hb hpresent hequal hcap
  have hv : validate (.magph d s1) s = none :=
    (checkMagph_present hpresent).trans (checkCmul_none (fun h => hequal (h.resolve_right (absurd rfl))) hcap)
  refine ⟨_, exec_busy hb hv, rfl, fun k hk => (elemAt_complete_result hv hk).trans ?_⟩
  rw [resultOf, elem_map_magPhase _ (by simpa using hk), elem_readBuf hk, magPhase]

/-! The default arctangent, by the class of its operands (R204) -/

theorem atan2Rounded_nan {y x : Word} (h : isNaN y = true ∨ isNaN x = true) : atan2Rounded y x = qNaN := by
  rw [atan2Rounded, if_pos (by simpa using h)]

section Ordered

variable {y x : Word} (hx : isNaN x = false)
include hx

theorem atan2Rounded_zero (hy : isZero y = true) :
    atan2Rounded y x = packSign (signBit y) (if signBit x then 0x40490FDB else 0) := by
  simp [atan2Rounded, hx, hy, isNaN_of_isZero hy, isInf_of_isZero hy]

theorem atan2Rounded_inf (hy : isInf y = true) :
    atan2Rounded y x =
      packSign (signBit y) (if isInf x then (if signBit x then 0x4016CBE4 else 0x3F490FDB) else 0x3FC90FDB) := by
  simp [atan2Rounded, isNaN_of_isInf hy, hx, hy, apply_ite (packSign (signBit y))]

/-- A finite nonzero `y` over a zero or an infinite `x`. -/
theorem atan2Rounded_finite (hy : isNaN y = false) (hzero : isZero y = false) (hinf : isInf y = false)
    (hspecial : isZero x = true ∨ isInf x = true) :
    atan2Rounded y x =
      packSign (signBit y) (if isZero x then 0x3FC90FDB else if signBit x then 0x40490FDB else 0) := by
  cases hxz : isZero x with
  | true => simp [atan2Rounded, hx, hy, hzero, hinf, hxz]
  | false =>
    have hxi : isInf x = true := hspecial.resolve_left (by simp [hxz])
    simp [atan2Rounded, hx, hy, hzero, hinf, hxz, hxi]

end Ordered

/-- Settles O60, row by row of the table. -/
theorem atan2SpecialCases : Obligations.Atan2SpecialCases := by
  intro y x
  refine ⟨atan2Rounded_nan, fun hy hx => ⟨fun hz hs => ?zeroRight, fun hz hs => ?zeroLeft, fun hz hi hxz => ?axis,
    fun hz hi hxi hs => ?farRight, fun hz hi hxi hs => ?farLeft, fun hi hxi => ?infFinite, fun hi hxi hs => ?infRight,
    fun hi hxi hs => ?infLeft⟩⟩
  case zeroRight | zeroLeft => simp [atan2Rounded_zero hx hz, hs]
  case axis => simp [atan2Rounded_finite hx hy hz hi (.inl hxz), hxz]
  case farRight | farLeft => simp [atan2Rounded_finite hx hy hz hi (.inr hxi), isZero_of_isInf hxi, hs]
  case infFinite => simp [atan2Rounded_inf hx hi, hxi]
  case infRight | infLeft => simp [atan2Rounded_inf hx hi, hxi, hs]

end Sys2Proof.Machine
end

section
/-! Scope: the system (44_system.md). Issue, error entry, acceptance and completion of a command (R215 to R218, R260, R266,
R270), and the driver's `wait` (R222). -/

namespace Sys2Proof.Machine

/-! Validation of a word (R266) -/

theorem validateWord_illegal {w : Word} {r : Reject} (hd : decodeWord w = .error r) (s : State) :
    validateWord w s = some .illegalCommand := by
  rw [validateWord, hd]

/-- Validation of a word looks at the lengths and the configuration alone (R215). -/
theorem validateWord_congr {s t : State} (hp : s.params = t.params) (ha : s.lena = t.lena) (hb : s.lenb = t.lenb) (w : Word) :
    validateWord w s = validateWord w t := by
  cases hd : decodeWord w with
  | error r => rw [validateWord_illegal hd, validateWord_illegal hd]
  | ok i => rw [validateWord_decoded hd, validateWord_decoded hd, validate_congr hp ha hb]

/-- The hardware never raises EmptyInput, whatever the word (R238, R260). -/
theorem validateWord_ne_emptyInput (w : Word) (s : State) : validateWord w s ≠ some .emptyInput := by
  cases hd : decodeWord w with
  | error r => simp [validateWord_illegal hd]
  | ok i => exact validateWord_decoded hd s ▸ validate_ne_emptyInput i s

/-! Command issue (R215) -/

section Issue

variable {w : Word} {s : State}

/-- A word that fails validation in the idle state takes the error entry with that word (R216). -/
theorem issueCommand_error {e : ErrCode} (hi : Idle s) (hv : validateWord w s = some e) :
    issueCommand w s = .next (errorEntry e w s) := by
  cases hd : decodeWord w with
  | error r =>
    obtain rfl : ErrCode.illegalCommand = e := Option.some.inj ((validateWord_illegal hd s).symm.trans hv)
    exact issueCommand_illegal hi hd
  | ok i =>
    rw [issueCommand_decoded hi hd, exec_error hi (validateWord_decoded hd s ▸ hv), (encodeOfDecode w i hd).1]

/-- A word that passes validation in the idle state is accepted and left in CMD (R217). -/
theorem issueCommand_accept (hi : Idle s) (hv : validateWord w s = none) : issueCommand w s = .next (accept w s) := by
  obtain ⟨i, hd, hvi⟩ := exists_instr_of_validateWord hv
  rw [issueCommand_decoded hi hd, exec_accept hi hvi, (encodeOfDecode w i hd).1]

end Issue

/-- Settles O6, by the flags and then by what validation answers. -/
theorem issueOutcome : Obligations.IssueOutcome := by
  intro w s
  refine ⟨fun hflags => ?dropped, fun hi e hv => issueCommand_error hi hv, fun hi hv => issueCommand_accept hi hv,
    fun t hp ha hb => validateWord_congr hp ha hb w⟩
  case dropped => exact issueCommand_locked ((locked_eq_true_iff s).2 hflags)

/-! The error entry (R270) -/

/-- The flags after an error entry with BUSY 0: only OVR is still the old one. -/
theorem errorFlags_of_not_busy {f : Status} (hb : f.busy = false) (e : ErrCode) :
    errorFlags f e = { busy := false, done := false, err := true, ovr := f.ovr, errcode := errorCode e } := by
  rw [errorFlags, hb]

/-- An error entry clears the cause *done* and sets the cause *error* (R275). -/
@[simp] theorem irq_errorEntry (e : ErrCode) (w : Word) (s : State) : irq (errorEntry e w s) = s.ctrl.ieErr := by
  simp [irq]

/-- Settles O7: the issue of a word that fails validation is the error entry, and validation never answers EmptyInput. -/
theorem errorEntryEffect : Obligations.ErrorEntryEffect := by
  refine ⟨fun w s e hi hv => ?entry, rfl, rfl, rfl, rfl, rfl, rfl, validateWord_ne_emptyInput⟩
  case entry =>
    refine ⟨errorEntry e w s, issueCommand_error hi hv, ?_, irq_errorEntry e w s⟩
    rw [errorEntry, errorFlags_of_not_busy hi.1]

/-! Acceptance (R217) -/

/-- Settles O8: an accepted command locks the unit, which alone decides what the host's accesses do. -/
theorem acceptEffect : Obligations.AcceptEffect := by
  intro w s hi hv
  have hb : (accept w s).status.busy = true := rfl
  have hl : locked (accept w s) = true := (locked_eq_true_iff _).2 (.inl hb)
  refine ⟨accept w s, issueCommand_accept hi hv, rfl, fun v r hr => regWrite_locked hr hl v, fun pl k v hk => ?samples⟩
  case samples => exact ⟨sampleWrite_locked (s := accept w s) hk hl v, sampleRead_free (s := accept w s) hk (.inl hb)⟩

/-! Completion (R218) -/

/-- Completion sets the cause *done* and leaves the cause *error* (R275). -/
@[simp] theorem irq_complete (m : Memory) (s : State) :
    irq (complete m s) = (s.ctrl.ieDone || (s.status.err && s.ctrl.ieErr)) := by
  simp [irq]

/-- Settles O9: the invariant gives the engine a validated command in CMD. -/
theorem completionEffect : Obligations.CompletionEffect := by
  intro s hinv
  refine ⟨fun hb => ?busy, engineTurn_idle⟩
  case busy =>
    obtain ⟨i, hd, hv⟩ := hinv.inFlight hb
    exact ⟨i, complete (updateOf i s) s, hd, engineTurn_complete hb hd hv, rfl, fun hie => by simp [hie]⟩

/-- The engine completes the command just accepted: what validation looked at is as it was (R218). -/
theorem engineTurn_accept {w : Word} {s : State} (hv : validateWord w s = none) :
    ∃ i, engineTurn (accept w s) = .next (complete (updateOf i (accept w s)) (accept w s)) := by
  obtain ⟨i, hd, hvi⟩ := exists_instr_of_validateWord hv
  have hvi' : validate i (accept w s) = none :=
    (validate_congr (accept_params w s) (accept_lena w s) (accept_lenb w s)).trans hvi
  exact ⟨i, engineTurn_complete (s := accept w s) rfl hd hvi'⟩

/-! `wait` (R222) -/

/-- While BUSY `wait` reads STATUS and polls again. -/
theorem hostOp_wait_busy {s : State} (hb : s.status.busy = true) :
    hostOp .wait s = .next { s with reads := statusWord s.status :: s.reads, script := .wait :: s.script } :=
  congrArg Host.Outcome.next (if_pos hb)

/-- With BUSY clear `wait` reads STATUS and ends. -/
theorem hostOp_wait_not_busy {s : State} (hb : s.status.busy = false) :
    hostOp .wait s = .next (pushRead (statusWord s.status) s) :=
  congrArg Host.Outcome.next (if_neg (by simp [hb]))

/-- Settles O10: the engine completes an accepted command and has nothing to do after a rejected one; either way BUSY is clear, and
the flags left are those of a completion or of an error entry. -/
theorem waitReturnsOutcome : Obligations.WaitReturnsOutcome := by
  intro s w hi
  cases hv : validateWord w s with
  | none =>
    obtain ⟨i, hturn⟩ := engineTurn_accept hv
    obtain ⟨hbusy, hdone, herr, -⟩ := statusWord_flags (completeFlags (acceptFlags s.status))
    exact ⟨accept w s, complete (updateOf i (accept w s)) (accept w s), issueCommand_accept hi hv, hturn, hostOp_wait_busy,
      hostOp_wait_not_busy rfl, hbusy, .inl ⟨rfl, hdone, herr.trans hi.2⟩⟩
  | some e =>
    obtain ⟨hbusy, hdone, herr, -⟩ := statusWord_flags (errorFlags s.status e)
    have hidle : (errorEntry e w s).status.busy = false := hi.1
    exact ⟨errorEntry e w s, errorEntry e w s, issueCommand_error hi hv, engineTurn_idle hidle, hostOp_wait_busy,
      hostOp_wait_not_busy hidle, hbusy.trans hidle,
      .inr ⟨e, rfl, hidle, hdone, herr, statusWord_errcode _, rfl⟩⟩

end Sys2Proof.Machine
end

section
/-! Scope: the driver CONVOLVE (45_convolve.md). The transform length (R237), the input checks (R238, R239), the sequence (R240), and
the ends of a call (R241, R242, R244). -/

namespace Sys2Proof.Machine

/-! The transform length (R8, R237) -/

theorem isPow2_iff_exists_two_pow (n : Nat) : isPow2 n = true ↔ ∃ k, n = 2 ^ k := by
  rw [isPow2, Bool.and_eq_true, bne_iff_ne, beq_iff_eq]
  exact Nat.ne_zero_and_sub_one_eq_zero_iff_isPowerOfTwo

theorem nextPow2_two_pow (k : Nat) : nextPow2 (2 ^ k) = 2 ^ k := by
  rw [nextPow2, if_pos (isPow2_two_pow k)]

/-- The exponent of the transform length is the ceiling of the logarithm of `x`: the least whose power reaches `x` (R237). -/
theorem exists_nextPow2_exponent {x : Nat} (hx : 1 ≤ x) : ∃ k, nextPow2 x = 2 ^ k ∧ ∀ j, x ≤ 2 ^ j ↔ k ≤ j := by
  by_cases hpow : ∃ k, x = 2 ^ k
  · obtain ⟨k, rfl⟩ := hpow
    exact ⟨k, nextPow2_two_pow k, fun j => Nat.pow_le_pow_iff_right (by omega)⟩
  · have hnot : ¬isPow2 x = true := fun h => hpow ((isPow2_iff_exists_two_pow x).1 h)
    refine ⟨x.log2 + 1, if_neg hnot, fun j => ?_⟩
    have hstrict : x ≤ 2 ^ j ↔ x < 2 ^ j :=
      ⟨fun hle => Nat.lt_of_le_of_ne hle fun heq => hpow ⟨j, heq⟩, Nat.le_of_lt⟩
    rw [hstrict, ← Nat.log2_lt (by omega), Nat.lt_iff_add_one_le]

/-- Settles O50, from the least exponent; a power of two is its own transform length. -/
theorem nextPow2Least : Obligations.NextPow2Least := by
  refine ⟨fun x hx => ?least, by decide⟩
  case least =>
    obtain ⟨k, hvalue, hleast⟩ := exists_nextPow2_exponent hx
    refine ⟨⟨k, hvalue⟩, hvalue ▸ (hleast k).2 (Nat.le_refl k), fun j hj => ?minimal, ?fixed⟩
    case minimal => exact hvalue ▸ Nat.pow_le_pow_right (by omega) ((hleast j).1 hj)
    case fixed =>
      rintro ⟨j, rfl⟩
      exact nextPow2_two_pow j

/-! The start of a call (R238 to R240) -/

section Start

variable {a b : List Word} {s : State}

theorem convolve_empty (h : a = [] ∨ b = []) : convolve a b s = { s with result := some (.error (errorCode .emptyInput)) } := by
  rw [convolve, if_pos h]

theorem convolve_tooLarge (ha : a ≠ []) (hb : b ≠ []) (hbig : nmax s.params < nextPow2 (a.length + b.length)) :
    convolve a b s = { s with result := some (.error (errorCode .lengthTooLarge)) } := by
  rw [convolve, if_neg (by simp [ha, hb]), if_pos hbig]

theorem convolve_starts (ha : a ≠ []) (hb : b ≠ []) (hcap : nextPow2 (a.length + b.length) ≤ nmax s.params) :
    convolve a b s = { s with script := convolveOps (nextPow2 (a.length + b.length)) a b ++ s.script } := by
  rw [convolve, if_neg (by simp [ha, hb]), if_neg (Nat.not_lt.2 hcap)]

end Start

/-- Steps 4 to 13 of R240 with the four commands as the words it gives. -/
theorem convolveOps_eq (n : Nat) (a b : List Word) :
    convolveOps n a b =
      [.wr .lena (BitVec.ofNat 32 n), .wr .lenb (BitVec.ofNat 32 n)] ++ loadOps .aRe .aIm n a ++ loadOps .bRe .bIm n b ++
      [.wr .cmd 0x00000001#32, .wait, .abortIfErr, .wr .cmd 0x00000011#32, .wait, .abortIfErr,
        .rd .lena, .rd .lenb, .abortIfLensDiffer,
        .wr .cmd 0x00000043#32, .wait, .abortIfErr, .wr .cmd 0x00000002#32, .wait, .abortIfErr] ++
      ((List.range n).map fun i => .rs .aRe i) ++ [.returnOutput n] := by
  have hfftA : commandOps (.fft .A) = [.wr .cmd 0x00000001#32, .wait, .abortIfErr] := rfl
  have hfftB : commandOps (.fft .B) = [.wr .cmd 0x00000011#32, .wait, .abortIfErr] := rfl
  have hcmul : commandOps (.cmul .A .A .B) = [.wr .cmd 0x00000043#32, .wait, .abortIfErr] := rfl
  have hifft : commandOps (.ifft .A) = [.wr .cmd 0x00000002#32, .wait, .abortIfErr] := rfl
  simp only [convolveOps, hfftA, hfftB, hcmul, hifft, List.append_assoc, List.cons_append, List.nil_append]

/-! The ends of a call (R241, R244) -/

/-- An abort goes through any run of operations that does not hold the call's last, the return of the output (R244). -/
theorem dropCall_append {left : List HostOp} (hleft : ∀ op ∈ left, ∀ m, op ≠ .returnOutput m) (ops : List HostOp) :
    dropCall (left ++ ops) = dropCall ops := by
  induction left with
  | nil => rfl
  | cons op left ih =>
    obtain ⟨hop, hrest⟩ := List.forall_mem_cons.1 hleft
    rw [List.cons_append, dropCall_cons hop, ih hrest]

section Ends

variable {s : State} {v la lb : Word} {vs : List Word}

theorem abortIfErr_clear (hreads : s.reads = v :: vs) (herr : v.getLsbD 2 = false) : abortIfErr s = s := by
  rw [abortIfErr, hreads, List.headD_cons]
  exact if_neg (by rw [herr]; decide)

theorem abortIfErr_set (hreads : s.reads = v :: vs) (herr : v.getLsbD 2 = true) :
    abortIfErr s = { s with script := srstOp :: dropCall s.script, result := some (.error (v.extractLsb' 8 4)) } := by
  rw [abortIfErr, hreads, List.headD_cons]
  exact if_pos herr

theorem abortIfLensDiffer_equal (hreads : s.reads = lb :: la :: vs) (hequal : la = lb) : abortIfLensDiffer s = s := by
  simp [abortIfLensDiffer, hreads, hequal]

theorem abortIfLensDiffer_unequal (hreads : s.reads = lb :: la :: vs) (hdiffer : la ≠ lb) :
    abortIfLensDiffer s =
      { s with script := dropCall s.script, result := some (.error (errorCode .lengthMismatch)) } := by
  simp [abortIfLensDiffer, hreads, hdiffer]

end Ends

/-- Settles O51, part by part: each operation of the driver takes one state to one next state. -/
theorem convolveEntry : Obligations.ConvolveEntry := by
  refine ⟨?start, ?unitError, ?lengths, ?dropped, fun _ _ => rfl⟩
  case start =>
    rintro s a b n rfl
    refine ⟨fun h => congrArg Host.Outcome.next (convolve_empty h),
      fun ha hb hbig => congrArg Host.Outcome.next (convolve_tooLarge ha hb hbig), fun ha hb hcap => ?_⟩
    rw [hostOp, convolve_starts ha hb hcap, convolveOps_eq]
    rfl
  case unitError =>
    intro s v vs hreads
    exact ⟨fun herr => congrArg Host.Outcome.next (abortIfErr_clear hreads herr),
      fun herr => congrArg Host.Outcome.next (abortIfErr_set hreads herr)⟩
  case lengths =>
    intro s lb la vs hreads
    exact ⟨fun hequal => congrArg Host.Outcome.next (abortIfLensDiffer_equal hreads hequal),
      fun hdiffer => congrArg Host.Outcome.next (abortIfLensDiffer_unequal hreads hdiffer)⟩
  case dropped =>
    intro left rest n hleft
    refine ⟨dropCall_append hleft (.returnOutput n :: rest), ?_⟩
    rw [← List.append_nil left, dropCall_append hleft, dropCall_nil]

end Sys2Proof.Machine
end

section
/-! Scope: exceptions (60_exceptions.md). The conditions of NonPowerOfTwoLength (R262), StageOutOfRange (R264), IllegalCommand (R265)
and LengthMismatch (R267), and that errors do not nest (R273). -/

namespace Sys2Proof.Machine

/-! NonPowerOfTwoLength (R162, R262) -/

/-- The power-of-two test comes before the capacity's, and nothing else answers its code. -/
theorem checkTransform_eq_nonPowerOfTwo_iff {d : Buf} {s : State} :
    checkTransform d s = some .nonPowerOfTwoLength ↔ ∀ k, len s d ≠ 2 ^ k := by
  have hpow : (∀ k, len s d ≠ 2 ^ k) ↔ isPow2 (len s d) = false := by
    rw [← Bool.not_eq_true, isPow2_iff_exists_two_pow, not_exists]
  rw [hpow, checkTransform, checkLength]
  cases isPow2 (len s d) with
  | false => simp
  | true => by_cases hbig : nmax s.params < len s d <;> simp [hbig]

/-- BFSTG's own check answers another code (R264). -/
theorem checkStage_eq_nonPowerOfTwo_iff {d : Buf} {stg : Nat} {s : State} :
    checkStage d stg s = some .nonPowerOfTwoLength ↔ checkTransform d s = some .nonPowerOfTwoLength := by
  rw [checkStage]
  cases checkTransform d s with
  | some e => rfl
  | none => simp

theorem validate_eq_nonPowerOfTwo_iff {i : Instr} {s : State} (htransform : isTransform i = true) :
    validate i s = some .nonPowerOfTwoLength ↔ ∀ k, operandLen i s ≠ 2 ^ k := by
  cases i with
  | fft d | ifft d | bitrev d | scale d => exact checkTransform_eq_nonPowerOfTwo_iff
  | bfstg d stg inv => exact checkStage_eq_nonPowerOfTwo_iff.trans checkTransform_eq_nonPowerOfTwo_iff
  | cmul d s1 s2 | magph d s1 => cases htransform

/-- Settles O11: validation finds the error exactly at such a length, and the issue takes what validation finds. -/
theorem nonPowerOfTwoError : Obligations.NonPowerOfTwoError := fun _ _ htransform hidle =>
  have hv := validate_eq_nonPowerOfTwo_iff htransform
  ⟨hv.symm, fun hlen => exec_error hidle (hv.2 hlen)⟩

/-! StageOutOfRange (R264) -/

theorem checkStage_outOfRange {d : Buf} {stg n : Nat} {s : State} (hlen : len s d = 2 ^ n) (hcap : 2 ^ n ≤ nmax s.params)
    (hstage : stg = 0 ∨ n < stg) : checkStage d stg s = some .stageOutOfRange := by
  rw [checkStage, checkTransform_two_pow hlen hcap, hlen, Nat.log2_two_pow]
  exact if_pos (by omega)

/-- Settles O13: the length passes its checks, the stage number fails its own. -/
theorem stageRangeError : Obligations.StageRangeError := fun _ _ _ _ _ hidle hlen hcap hstage =>
  exec_error hidle (checkStage_outOfRange hlen hcap hstage)

/-! IllegalCommand (R265) -/

/-- Settles O14, by the reason the word is no command of the unit: it does not decode, or it is MAGPH where there is none. -/
theorem illegalCommandError : Obligations.IllegalCommandError := by
  rintro w s hidle (⟨r, hd⟩ | ⟨habsent, d, s1, hd⟩)
  · exact issueCommand_illegal hidle hd
  · exact issueCommand_error hidle ((validateWord_decoded hd s).trans (validate_magph_absent habsent d s1))

/-! LengthMismatch (R191, R201, R267) -/

/-- Unequal lengths are found before the capacity is looked at. -/
theorem checkPair_mismatch {s : State} (hdiffer : s.lena ≠ s.lenb) (m : Nat) : checkPair true m s = some .lengthMismatch :=
  if_pos (by simpa using hdiffer)

theorem validate_lengthMismatch {i : Instr} {s : State} (hboth : namesBoth i = true)
    (hpresent : (∃ d s1, i = .magph d s1) → s.params.hasMagph = true) (hdiffer : s.lena ≠ s.lenb) :
    validate i s = some .lengthMismatch := by
  have hcmul {d s1 s2 : Buf} (hnames : namesBoth (.cmul d s1 s2) = true) : checkCmul d s1 s2 s = some .lengthMismatch := by
    rw [checkCmul, not_sameBuf_eq_namesBoth, hnames, checkPair_mismatch hdiffer]
  cases i with
  | fft d | ifft d | bitrev d | bfstg d stg inv | scale d => cases hboth
  | cmul d s1 s2 => exact hcmul hboth
  | magph d s1 =>
    have hnames : namesBoth (.cmul d s1 s1) = true := by simpa [namesBoth] using hboth
    exact (checkMagph_present (hpresent ⟨d, s1, rfl⟩)).trans (hcmul hnames)

/-- Settles O15: the lengths are the first thing validation compares. -/
theorem lengthMismatchError : Obligations.LengthMismatchError := fun _ _ hidle hboth hpresent hdiffer =>
  exec_error hidle (validate_lengthMismatch hboth hpresent hdiffer)

/-! Errors do not nest (R273) -/

/-- ERR, ERRCODE and ERRINFO are in `t` as they are in `s`. -/
def ErrorKept (s t : State) : Prop :=
  t.status.err = s.status.err ∧ t.status.errcode = s.status.errcode ∧ t.errinfo = s.errinfo

/-- The status flags and ERRINFO are as either reset leaves them (R43). -/
def ErrorReset (t : State) : Prop := t.status = statusReset ∧ t.errinfo = 0#32

theorem SameUnit.errorKept {s t : State} (h : SameUnit s t) : ErrorKept s t :=
  ⟨congrArg Status.err h.status, congrArg Status.errcode h.status, h.errinfo⟩

theorem writeCtrl_error (v : Word) (s : State) : ErrorKept s (writeCtrl v s) ∨ ErrorReset (writeCtrl v s) := by
  cases hv : v.getLsbD 0 with
  | true => exact .inr (writeCtrl_reset hv s ▸ ⟨rfl, rfl⟩)
  | false => exact .inl (writeCtrl_enables hv s ▸ ⟨rfl, rfl, rfl⟩)

/-- While BUSY or in the fault state no operation of the host validates a command, so none raises an error. -/
theorem error_of_hostEffect {s t : State} (hl : locked s = true) (h : HostEffect s t) : ErrorKept s t ∨ ErrorReset t := by
  have hnotIdle : ¬Idle s := by rw [← locked_eq_false_iff, hl]; decide
  cases h with
  | same hst => exact .inl hst.errorKept
  | dropped _ ht | flags _ ht => exact .inl (ht ▸ ⟨rfl, rfl, rfl⟩)
  | control v ht => exact ht ▸ writeCtrl_error v s
  | cleared ht => exact .inr (ht ▸ ⟨rfl, rfl⟩)
  | lengthA hi | lengthB hi | stored hi | illegal hi | rejected hi | accepted hi => exact absurd hi hnotIdle

/-- A step from such a state raises no error either: a completion leaves the error registers (R218). -/
theorem error_of_step {s t : State} (hl : locked s = true) (h : step s = .next t) : ErrorKept s t ∨ ErrorReset t := by
  rcases step_effect h with hsame | ⟨_, i, _, _, rfl⟩ | ⟨op, rest, _, hop⟩
  · exact .inl hsame.errorKept
  · exact .inl ⟨rfl, rfl, rfl⟩
  · exact error_of_hostEffect (s := { passTurn s with script := rest }) hl (hostOp_effect hop)

/-- Settles O17: the fault state and BUSY both lock the unit, and with BUSY 1 the ERR that is kept is 0 (R26). -/
theorem faultStateKeepsFirstError : Obligations.FaultStateKeepsFirstError := by
  intro s t hf hstep
  refine ⟨fun he => ?fault, fun hb => ?busy⟩
  case fault =>
    have hl : locked s = true := (locked_eq_true_iff s).2 (.inr he)
    exact (error_of_step hl hstep).imp_left fun ⟨herr, hcode, hinfo⟩ => ⟨herr.trans he, hcode, hinfo⟩
  case busy =>
    have he : s.status.err = false := Bool.eq_false_iff.2 fun he => hf.busyErr ⟨hb, he⟩
    have hl : locked s = true := (locked_eq_true_iff s).2 (.inl hb)
    rcases error_of_step hl hstep with ⟨herr, _⟩ | ⟨hstatus, _⟩
    · exact herr.trans he
    · exact congrArg Status.err hstatus

end Sys2Proof.Machine
end

section
/-! Scope: reset and hazards (70_reset_and_hazards.md). The two resets (R300, R302) and the unit right after a reset (R301). -/

namespace Sys2Proof.Machine

/-! The hard reset (R300) -/

/-- Settles O20: the registers are cleared, and the empty memory holds no sample. -/
theorem hardResetEffect : Obligations.HardResetEffect := by
  intro s
  have hengine : engineTurn (hardReset s) = .next (hardReset s) := engineTurn_idle rfl
  have hsamples (pl : Plane) (k : Nat) : sampleAt (hardReset s) pl k = none := rfl
  exact ⟨hardReset s, rfl, rfl, rfl, rfl, rfl, rfl, rfl, hsamples, hengine, irq_hardReset s, rfl⟩

/-! The soft reset (R302) -/

section InFlight

variable {s : State} {i : Instr} (hb : s.status.busy = true) (hd : decodeWord s.cmd = .ok i)
include hb hd

/-- A soft reset with a command in flight writes unspecified elements over its destination operand, up to the capacity. -/
theorem abandonOperand_busy :
    abandonOperand s =
      writeBuf s (destOf i) (List.replicate (min (operandLen i s) (nmax s.params)) { re := none, im := none }) := by
  simp [abandonOperand, hb, hd]

/-- The elements after it: below the capacity the bound on the words given up is no restriction. -/
theorem elemAt_softReset_busy (b : Buf) {k : Nat} (hk : k < nmax s.params) :
    elemAt (softReset s) b k =
      if b = destOf i ∧ k < operandLen i s then { re := none, im := none } else elemAt s b k := by
  have hmem : elemAt (softReset s) b k = elemAt { s with mem := abandonOperand s } b k := rfl
  have hcap : (List.replicate (min (operandLen i s) (nmax s.params)) ({ re := none, im := none } : Cx)).length ≤
      nmax s.params := by
    rw [List.length_replicate]
    exact Nat.min_le_right _ _
  rw [hmem, abandonOperand_busy hb hd]
  by_cases hdest : b = destOf i
  · subst hdest
    have hbelow : k < min (operandLen i s) (nmax s.params) ↔ k < operandLen i s := by omega
    rw [elemAt_writeBuf_self hcap hk]
    simp only [List.length_replicate, List.getElem_replicate, hbelow, dite_eq_ite, true_and]
  · rw [elemAt_writeBuf_other hcap hk hdest, if_neg fun h => hdest h.1]

end InFlight

/-- Settles O21: the write is the soft reset; what it leaves of the memory is read off by BUSY. -/
theorem softResetEffect : Obligations.SoftResetEffect := by
  intro s v hv
  have hengine : engineTurn (softReset s) = .next (softReset s) := engineTurn_idle rfl
  exact ⟨softReset s, hostOp_srst hv s, rfl, rfl, rfl, rfl, rfl, rfl, hengine, rfl, abandonOperand_idle,
    fun hb _ hd b _ hk => elemAt_softReset_busy hb hd b hk⟩

/-! The unit right after a reset (R301) -/

/-- With equal lengths up to the capacity CMUL is accepted, and so is MAGPH where present (R191, R201). -/
theorem validate_pair_none {i : Instr} {s : State} (hpair : isTransform i = false)
    (hpresent : (∃ d s1, i = .magph d s1) → s.params.hasMagph = true) (hequal : s.lena = s.lenb)
    (hcap : operandLen i s ≤ nmax s.params) : validate i s = none := by
  cases i with
  | fft d | ifft d | bitrev d | bfstg d stg inv | scale d => cases hpair
  | cmul d s1 s2 => exact checkCmul_none (fun _ => hequal) hcap
  | magph d s1 => exact (checkMagph_present (hpresent ⟨d, s1, rfl⟩)).trans (checkCmul_none (fun _ => hequal) hcap)

/-- A command of operand length 0 touches no memory (R191, R201). -/
theorem updateOf_length_zero {i : Instr} {s : State} (hwf : s.mem.wf) (hzero : operandLen i s = 0) : updateOf i s = s.mem :=
  Memory.ext_of_wf (updateOf_wf hwf) hwf fun _ => byteAt_updateOf (by omega) (by omega)

theorem idle_resetOf (p : Params) : Idle (resetOf p) := ⟨rfl, rfl⟩

theorem operandLen_resetOf (i : Instr) (p : Params) : operandLen i (resetOf p) = 0 := by
  rw [operandLen]
  cases lengthBuf i <;> rfl

/-- Settles O22: 0 is no power of two, and as an operand length it is accepted and touches nothing. -/
theorem afterResetBehaviour : Obligations.AfterResetBehaviour := by
  intro p
  have hidle := idle_resetOf p
  refine ⟨hidle, rfl, rfl, rfl, rfl, rfl, fun i htransform => ?transform, fun i hwell hpair hpresent => ?pair⟩
  case transform =>
    have hlen (k : Nat) : operandLen i (resetOf p) ≠ 2 ^ k := by
      rw [operandLen_resetOf]
      exact Nat.ne_of_lt (Nat.two_pow_pos k)
    exact exec_error hidle ((validate_eq_nonPowerOfTwo_iff htransform).2 hlen)
  case pair =>
    have hzero := operandLen_resetOf i p
    have hcap : operandLen i (resetOf p) ≤ nmax (resetOf p).params := Nat.le_trans (Nat.le_of_eq hzero) (Nat.zero_le _)
    have hv : validate i (resetOf p) = none := validate_pair_none hpair hpresent rfl hcap
    exact ⟨awaited i (resetOf p), runOne_eq_awaited hidle hwell hv, rfl, updateOf_length_zero List.Pairwise.nil hzero⟩

end Sys2Proof.Machine
end
